-- ==== Sys2Proof/Word.lean ====
section
/-! DEFINITION. The words of the machine: the 8-bit byte, the 16-bit word, the 4-bit and 12-bit
fields of an instruction, and the number of a general register (R4, R6, R7, R81). Every value is
unsigned (R7). -/

namespace Sys2Proof

/-- The 8-bit unit: a general register, a timer, a memory byte, an immediate `kk` (R4, R81). -/
abbrev Byte := BitVec 8

/-- The 16-bit unit: an instruction word, `I`, `PC`, a stack slot (R4, R80). -/
abbrev Word := BitVec 16

/-- The 12-bit address literal `addr` (R81). -/
abbrev Addr12 := BitVec 12

/-- The number of a general register, 0 to 15 (R20): always in range, since `x` and `y` are 4 bits. -/
abbrev Reg := Fin 16

/-- A nibble literal `n`, 0 to 15 (R81): a row count, or bits that an operation ignores (R93). -/
abbrev Nibble := Fin 16

/-- Zero extension of a 12-bit address to 16 bits (R8 `zext_16`, R83). -/
abbrev zextAddr (a : Addr12) : Word := a.setWidth 16

/-- Zero extension of a byte to 16 bits (R8 `zext_16`). -/
abbrev zextByte (b : Byte) : Word := b.setWidth 16

end Sys2Proof
end

