-- ==== Sys2Proof/Config.lean ====
section
/-! DEFINITION. The five named parameters of R5, which the spec says a model takes as arguments. They
are plain data, held in `State` and changed by no step, so that a statement about every state is a
statement about every admissible value of them (assumption log 9). -/

namespace Sys2Proof

/-- R5: the parameters of the hardware, each over the range a claim may quantify over. -/
structure Config where
  /-- `TICKS_PER_FRAME`: at least 1 (`Config.Valid`), default 10 (R178). -/
  ticksPerFrame : Nat
  /-- `FONT_BASE`: 0 to 432, so that the 80 glyph bytes lie inside 0 to 511, default 0x050 (R55). -/
  fontBase      : Fin 433
  /-- `KEYSCAN_LAST`: the last key `LD Vx,K` scans, 0 to 15, default 14 (R162). -/
  keyscanLast   : Fin 16
  /-- `SUBN_CANONICAL`: false is the observed direction of `SUBN` (R130). -/
  subnCanonical : Bool
  /-- `STRICT_XY0`: false decodes families 5 and 9 on `msn` alone (R88). -/
  strictXY0     : Bool
deriving DecidableEq, Repr

/-- The default value of every parameter (R5). -/
def Config.default : Config where
  ticksPerFrame := 10
  fontBase      := 0x050
  keyscanLast   := 14
  subnCanonical := false
  strictXY0     := false

/-- The one bound of R5 that the field types do not carry: `TICKS_PER_FRAME` is at least 1. -/
abbrev Config.Valid (c : Config) : Prop := 1 ≤ c.ticksPerFrame

end Sys2Proof
end

