-- ==== Sys2Proof/Syntax.lean ====
section
/-! DEFINITION. The instructions: one constructor per row of spec/opcode_table.json, in the order of
R85. A constructor holds every operand of its row, and also the bits its operation ignores (R93), so
that no bit of a word is lost between `decode` and `encode`. -/

namespace Sys2Proof

inductive Instr where
  /-- `00E0` `CLS` (R151). -/
  | cls
  /-- `00EE` `RET` (R101). -/
  | ret
  /-- `0nnn` `SYS addr`, `addr` ignored (R100). -/
  | sys (addr : Addr12)
  /-- `1nnn` `JP addr` (R102). -/
  | jp (addr : Addr12)
  /-- `2nnn` `CALL addr` (R103). -/
  | call (addr : Addr12)
  /-- `3xkk` `SE Vx,kk` (R104). -/
  | seImm (x : Reg) (kk : Byte)
  /-- `4xkk` `SNE Vx,kk` (R105). -/
  | sneImm (x : Reg) (kk : Byte)
  /-- `5xyn` `SE Vx,Vy`, `n` ignored (R106, R88). -/
  | seReg (x y : Reg) (n : Nibble)
  /-- `9xyn` `SNE Vx,Vy`, `n` ignored (R107, R88). -/
  | sneReg (x y : Reg) (n : Nibble)
  /-- `6xkk` `LD Vx,kk` (R120). -/
  | ldImm (x : Reg) (kk : Byte)
  /-- `7xkk` `ADD Vx,kk` (R121). -/
  | addImm (x : Reg) (kk : Byte)
  /-- `8xy0` `LD Vx,Vy` (R122). -/
  | ldReg (x y : Reg)
  /-- `8xy1` `OR Vx,Vy` (R123). -/
  | orReg (x y : Reg)
  /-- `8xy2` `AND Vx,Vy` (R124). -/
  | andReg (x y : Reg)
  /-- `8xy3` `XOR Vx,Vy` (R125). -/
  | xorReg (x y : Reg)
  /-- `8xy4` `ADD Vx,Vy` (R126). -/
  | addReg (x y : Reg)
  /-- `8xy5` `SUB Vx,Vy` (R127). -/
  | subReg (x y : Reg)
  /-- `8xy6` `SHR Vx`, `y` ignored (R128). -/
  | shr (x y : Reg)
  /-- `8xy7` `SUBN Vx,Vy` (R130). -/
  | subn (x y : Reg)
  /-- `8xyE` `SHL Vx`, `y` ignored (R131). -/
  | shl (x y : Reg)
  /-- `Annn` `LD I,addr` (R140). -/
  | ldI (addr : Addr12)
  /-- `Bnnn` `JP V0,addr` (R108). -/
  | jpV0 (addr : Addr12)
  /-- `Cxkk` `RND Vx,kk` (R132). -/
  | rnd (x : Reg) (kk : Byte)
  /-- `Dxyn` `DRW Vx,Vy,n` (R152). -/
  | drw (x y : Reg) (n : Nibble)
  /-- `Ex9E` `SKP Vx` (R160). -/
  | skp (x : Reg)
  /-- `ExA1` `SKNP Vx` (R161). -/
  | sknp (x : Reg)
  /-- `Fx07` `LD Vx,DT` (R163). -/
  | ldVxDT (x : Reg)
  /-- `Fx15` `LD DT,Vx` (R164). -/
  | ldDTVx (x : Reg)
  /-- `Fx18` `LD ST,Vx` (R165). -/
  | ldSTVx (x : Reg)
  /-- `Fx0A` `LD Vx,K` (R162). -/
  | ldVxK (x : Reg)
  /-- `Fx1E` `ADD I,Vx` (R141). -/
  | addI (x : Reg)
  /-- `Fx29` `LD F,Vx` (R142). -/
  | ldF (x : Reg)
  /-- `Fx33` `LD B,Vx` (R143). -/
  | ldB (x : Reg)
  /-- `Fx55` `LD [I],Vx` (R145). -/
  | stRegs (x : Reg)
  /-- `Fx65` `LD Vx,[I]` (R146). -/
  | ldRegs (x : Reg)
  /-- `Unknown`: every word that matches no other row, kept whole (R84, R174). -/
  | unknown (word : Word)
deriving DecidableEq, Repr

/-- The number of the instruction's row in the table of R85, 1 to 36. -/
def Instr.row : Instr → Nat
  | .cls => 1
  | .ret => 2
  | .sys _ => 3
  | .jp _ => 4
  | .call _ => 5
  | .seImm _ _ => 6
  | .sneImm _ _ => 7
  | .seReg _ _ _ => 8
  | .sneReg _ _ _ => 9
  | .ldImm _ _ => 10
  | .addImm _ _ => 11
  | .ldReg _ _ => 12
  | .orReg _ _ => 13
  | .andReg _ _ => 14
  | .xorReg _ _ => 15
  | .addReg _ _ => 16
  | .subReg _ _ => 17
  | .shr _ _ => 18
  | .subn _ _ => 19
  | .shl _ _ => 20
  | .ldI _ => 21
  | .jpV0 _ => 22
  | .rnd _ _ => 23
  | .drw _ _ _ => 24
  | .skp _ => 25
  | .sknp _ => 26
  | .ldVxDT _ => 27
  | .ldDTVx _ => 28
  | .ldSTVx _ => 29
  | .ldVxK _ => 30
  | .addI _ => 31
  | .ldF _ => 32
  | .ldB _ => 33
  | .stRegs _ => 34
  | .ldRegs _ => 35
  | .unknown _ => 36

end Sys2Proof
end

