-- ==== Sys2Proof/WellFormed.lean ====
section
/-! DEFINITION. Which terms of `Instr` stand for a word under the classification of R85 to R91. The
field types already bound every operand; what is left is that `SYS` is not one of the two fixed words
of its family (R86), that the ignored nibble of families 5 and 9 is 0 under `STRICT_XY0` (R88), and that
an `Unknown` word matches no defined pattern (R87, R89, R90). -/

namespace Sys2Proof

/-- R87: the low nibbles that family 8 defines. -/
def definedLow8 : List Nat := [0x0, 0x1, 0x2, 0x3, 0x4, 0x5, 0x6, 0x7, 0xE]

/-- R89: the low bytes that family E defines. -/
def definedLowE : List Nat := [0x9E, 0xA1]

/-- R90: the low bytes that family F defines. -/
def definedLowF : List Nat := [0x07, 0x0A, 0x15, 0x18, 0x1E, 0x29, 0x33, 0x55, 0x65]

/-- R86 to R91: the word is one of the 35 defined operations. Its fields are taken here by division, as
numbers, and not with the decoder's own slices. -/
def isDefinedWord (strict : Bool) (w : Word) : Bool :=
  let msn := w.toNat / 4096
  let low4 := w.toNat % 16
  let low8 := w.toNat % 256
  if msn = 0x8 then definedLow8.contains low4
  else if msn = 0xE then definedLowE.contains low8
  else if msn = 0xF then definedLowF.contains low8
  else if msn = 0x5 ∨ msn = 0x9 then !strict || low4 == 0
  else true

/-- The term is the classification of some word. -/
def Instr.wellFormed (strict : Bool) : Instr → Bool
  | .sys addr => addr != 0x0E0#12 && addr != 0x0EE#12
  | .seReg _ _ n => !strict || n == 0
  | .sneReg _ _ n => !strict || n == 0
  | .unknown w => !isDefinedWord strict w
  | .cls | .ret | .jp _ | .call _ | .seImm _ _ | .sneImm _ _ | .ldImm _ _ | .addImm _ _
  | .ldReg _ _ | .orReg _ _ | .andReg _ _ | .xorReg _ _ | .addReg _ _ | .subReg _ _ | .shr _ _
  | .subn _ _ | .shl _ _ | .ldI _ | .jpV0 _ | .rnd _ _ | .drw _ _ _ | .skp _ | .sknp _
  | .ldVxDT _ | .ldDTVx _ | .ldSTVx _ | .ldVxK _ | .addI _ | .ldF _ | .ldB _ | .stRegs _
  | .ldRegs _ => true

end Sys2Proof
end

