-- ==== Sys2Proof/Decode.lean ====
section
/-! DEFINITION. The decoder, the encoder and the opcode table (R80 to R96). `decode` is the decision tree
of R85 keyed on `msn`; `encode` lays the fields out again; `opcodeRows` is the table of R85 as data, read
by `classify` with the procedure of R96, so that the tree can be held against the table. Every bit pattern
here is general knowledge and not the source's (D1, assumption log 10). -/

namespace Sys2Proof

/-! ## The six fields of a word (R81) -/

/-- `w[15:12]`, the family selector. -/
def msn (w : Word) : BitVec 4 := w.extractLsb' 12 4

/-- `w[11:8]`, the number of the first register. -/
def fieldX (w : Word) : Reg := (w.extractLsb' 8 4).toFin

/-- `w[7:4]`, the number of the second register. -/
def fieldY (w : Word) : Reg := (w.extractLsb' 4 4).toFin

/-- `w[3:0]`, the nibble literal. -/
def fieldN (w : Word) : Nibble := (w.extractLsb' 0 4).toFin

/-- `w[7:0]`, the byte literal. -/
def fieldKK (w : Word) : Byte := w.extractLsb' 0 8

/-- `w[11:0]`, the address literal. -/
def fieldAddr (w : Word) : Addr12 := w.extractLsb' 0 12

/-! ## The decoder -/

/-- Family 0, keyed on `addr` (R86). -/
def decodeFamily0 (w : Word) : Instr :=
  if fieldAddr w = 0x0E0#12 then .cls
  else if fieldAddr w = 0x0EE#12 then .ret
  else .sys (fieldAddr w)

/-- Families 5 and 9: on `msn` alone, or with `n = 0` required under `STRICT_XY0` (R88). -/
def decodeXY0 (strict : Bool) (op : Reg → Reg → Nibble → Instr) (w : Word) : Instr :=
  if strict = true ∧ fieldN w ≠ 0 then .unknown w else op (fieldX w) (fieldY w) (fieldN w)

/-- Family 8, keyed on `n` (R87). -/
def decodeFamily8 (w : Word) : Instr :=
  let x := fieldX w
  let y := fieldY w
  if fieldN w = 0x0 then .ldReg x y
  else if fieldN w = 0x1 then .orReg x y
  else if fieldN w = 0x2 then .andReg x y
  else if fieldN w = 0x3 then .xorReg x y
  else if fieldN w = 0x4 then .addReg x y
  else if fieldN w = 0x5 then .subReg x y
  else if fieldN w = 0x6 then .shr x y
  else if fieldN w = 0x7 then .subn x y
  else if fieldN w = 0xE then .shl x y
  else .unknown w

/-- Family E, keyed on `kk` (R89). -/
def decodeFamilyE (w : Word) : Instr :=
  if fieldKK w = 0x9E#8 then .skp (fieldX w)
  else if fieldKK w = 0xA1#8 then .sknp (fieldX w)
  else .unknown w

/-- Family F, keyed on `kk` (R90). -/
def decodeFamilyF (w : Word) : Instr :=
  let x := fieldX w
  if fieldKK w = 0x07#8 then .ldVxDT x
  else if fieldKK w = 0x0A#8 then .ldVxK x
  else if fieldKK w = 0x15#8 then .ldDTVx x
  else if fieldKK w = 0x18#8 then .ldSTVx x
  else if fieldKK w = 0x1E#8 then .addI x
  else if fieldKK w = 0x29#8 then .ldF x
  else if fieldKK w = 0x33#8 then .ldB x
  else if fieldKK w = 0x55#8 then .stRegs x
  else if fieldKK w = 0x65#8 then .ldRegs x
  else .unknown w

/-- R84 to R91: the classification of a word, total on all 65536 words. The last arm is family F. -/
def decode (strict : Bool) (w : Word) : Instr :=
  match msn w with
  | 0x0#4 => decodeFamily0 w
  | 0x1#4 => .jp (fieldAddr w)
  | 0x2#4 => .call (fieldAddr w)
  | 0x3#4 => .seImm (fieldX w) (fieldKK w)
  | 0x4#4 => .sneImm (fieldX w) (fieldKK w)
  | 0x5#4 => decodeXY0 strict .seReg w
  | 0x6#4 => .ldImm (fieldX w) (fieldKK w)
  | 0x7#4 => .addImm (fieldX w) (fieldKK w)
  | 0x8#4 => decodeFamily8 w
  | 0x9#4 => decodeXY0 strict .sneReg w
  | 0xA#4 => .ldI (fieldAddr w)
  | 0xB#4 => .jpV0 (fieldAddr w)
  | 0xC#4 => .rnd (fieldX w) (fieldKK w)
  | 0xD#4 => .drw (fieldX w) (fieldY w) (fieldN w)
  | 0xE#4 => decodeFamilyE w
  | _ => decodeFamilyF w

/-- R57, R80: the big-endian instruction word of two bytes, the one at the lower address first. -/
def wordOfBytes (hi lo : Byte) : Word := hi ++ lo

/-- Why a byte list holds no instruction: R80, every instruction is two bytes. -/
inductive DecodeError where
  /-- Fewer than two bytes are left. -/
  | truncated
deriving DecidableEq, Repr

/-- The first instruction of a byte list and the bytes after it. -/
def decodeBytes (strict : Bool) : List Byte → Except DecodeError (Instr × List Byte)
  | hi :: lo :: rest => .ok (decode strict (wordOfBytes hi lo), rest)
  | [_] => .error .truncated
  | [] => .error .truncated

/-! ## The encoder -/

/-- A register number or nibble as the four bits of its field. -/
def nibbleBits (r : Fin 16) : BitVec 4 := BitVec.ofFin r

/-- Format `NNN` (R82). -/
def packNNN (m : BitVec 4) (addr : Addr12) : Word := m ++ addr

/-- Formats `XKK` and `X` (R82). -/
def packXKK (m : BitVec 4) (x : Reg) (kk : Byte) : Word := m ++ nibbleBits x ++ kk

/-- Formats `XYN` and `XY` (R82). -/
def packXYN (m : BitVec 4) (x y : Reg) (n : Nibble) : Word :=
  m ++ nibbleBits x ++ nibbleBits y ++ nibbleBits n

/-- The word of an instruction (column `pattern` of R85). -/
def encode : Instr → Word
  | .cls => 0x00E0#16
  | .ret => 0x00EE#16
  | .sys addr => packNNN 0x0 addr
  | .jp addr => packNNN 0x1 addr
  | .call addr => packNNN 0x2 addr
  | .seImm x kk => packXKK 0x3 x kk
  | .sneImm x kk => packXKK 0x4 x kk
  | .seReg x y n => packXYN 0x5 x y n
  | .sneReg x y n => packXYN 0x9 x y n
  | .ldImm x kk => packXKK 0x6 x kk
  | .addImm x kk => packXKK 0x7 x kk
  | .ldReg x y => packXYN 0x8 x y 0x0
  | .orReg x y => packXYN 0x8 x y 0x1
  | .andReg x y => packXYN 0x8 x y 0x2
  | .xorReg x y => packXYN 0x8 x y 0x3
  | .addReg x y => packXYN 0x8 x y 0x4
  | .subReg x y => packXYN 0x8 x y 0x5
  | .shr x y => packXYN 0x8 x y 0x6
  | .subn x y => packXYN 0x8 x y 0x7
  | .shl x y => packXYN 0x8 x y 0xE
  | .ldI addr => packNNN 0xA addr
  | .jpV0 addr => packNNN 0xB addr
  | .rnd x kk => packXKK 0xC x kk
  | .drw x y n => packXYN 0xD x y n
  | .skp x => packXKK 0xE x 0x9E
  | .sknp x => packXKK 0xE x 0xA1
  | .ldVxDT x => packXKK 0xF x 0x07
  | .ldDTVx x => packXKK 0xF x 0x15
  | .ldSTVx x => packXKK 0xF x 0x18
  | .ldVxK x => packXKK 0xF x 0x0A
  | .addI x => packXKK 0xF x 0x1E
  | .ldF x => packXKK 0xF x 0x29
  | .ldB x => packXKK 0xF x 0x33
  | .stRegs x => packXKK 0xF x 0x55
  | .ldRegs x => packXKK 0xF x 0x65
  | .unknown w => w

/-- The two bytes of a word as memory holds them: bits 15:8 at the lower address (R57). -/
def bytesOfWord (w : Word) : List Byte := [w.extractLsb' 8 8, w.extractLsb' 0 8]

/-- What the decoder reads, with the default parameters, from an instruction whose bits are `w`: one
16-bit word, laid out high byte first. -/
def decodeTableWord (nbits w : Nat) : Option Instr :=
  match decodeBytes Config.default.strictXY0 (bytesOfWord (BitVec.ofNat 16 (w % 2 ^ nbits))) with
  | .ok (i, _) => some i
  | .error _ => none

/-! ## The opcode table as data -/

/-- One row of the table of R85, with the fields of R96 that decoding uses. -/
structure OpcodeRow where
  /-- The number of the row, as `Instr.row` counts. -/
  row        : Nat
  pattern    : Word
  mask       : Word
  /-- `mask_strict`: the mask under `STRICT_XY0`. -/
  maskStrict : Word
  priority   : Nat
deriving DecidableEq, Repr

/-- A row whose mask does not depend on `STRICT_XY0`. -/
def plainRow (row : Nat) (pattern mask : Word) (priority : Nat) : OpcodeRow :=
  { row := row, pattern := pattern, mask := mask, maskStrict := mask, priority := priority }

/-- R85, rows 1 to 11. -/
def opcodeRowsA : List OpcodeRow :=
  [ plainRow 1 0x00E0 0xFFFF 2, plainRow 2 0x00EE 0xFFFF 2, plainRow 3 0x0000 0xF000 1,
    plainRow 4 0x1000 0xF000 1, plainRow 5 0x2000 0xF000 1, plainRow 6 0x3000 0xF000 1,
    plainRow 7 0x4000 0xF000 1,
    { row := 8, pattern := 0x5000, mask := 0xF000, maskStrict := 0xF00F, priority := 1 },
    { row := 9, pattern := 0x9000, mask := 0xF000, maskStrict := 0xF00F, priority := 1 },
    plainRow 10 0x6000 0xF000 1, plainRow 11 0x7000 0xF000 1 ]

/-- R85, rows 12 to 24. -/
def opcodeRowsB : List OpcodeRow :=
  [ plainRow 12 0x8000 0xF00F 1, plainRow 13 0x8001 0xF00F 1, plainRow 14 0x8002 0xF00F 1,
    plainRow 15 0x8003 0xF00F 1, plainRow 16 0x8004 0xF00F 1, plainRow 17 0x8005 0xF00F 1,
    plainRow 18 0x8006 0xF00F 1, plainRow 19 0x8007 0xF00F 1, plainRow 20 0x800E 0xF00F 1,
    plainRow 21 0xA000 0xF000 1, plainRow 22 0xB000 0xF000 1, plainRow 23 0xC000 0xF000 1,
    plainRow 24 0xD000 0xF000 1 ]

/-- R85, rows 25 to 36. -/
def opcodeRowsC : List OpcodeRow :=
  [ plainRow 25 0xE09E 0xF0FF 1, plainRow 26 0xE0A1 0xF0FF 1, plainRow 27 0xF007 0xF0FF 1,
    plainRow 28 0xF015 0xF0FF 1, plainRow 29 0xF018 0xF0FF 1, plainRow 30 0xF00A 0xF0FF 1,
    plainRow 31 0xF01E 0xF0FF 1, plainRow 32 0xF029 0xF0FF 1, plainRow 33 0xF033 0xF0FF 1,
    plainRow 34 0xF055 0xF0FF 1, plainRow 35 0xF065 0xF0FF 1, plainRow 36 0x0000 0x0000 0 ]

/-- The table of R85, which is spec/opcode_table.json. -/
def opcodeRows : List OpcodeRow := opcodeRowsA ++ opcodeRowsB ++ opcodeRowsC

/-- R96: the word matches the row. -/
def OpcodeRow.isMatch (strict : Bool) (w : Word) (r : OpcodeRow) : Bool :=
  w &&& (if strict then r.maskStrict else r.mask) == r.pattern

/-- The row of greatest priority among those of the list that match, with `best` the one so far. -/
def bestRow (strict : Bool) (w : Word) : List OpcodeRow → Option OpcodeRow → Option OpcodeRow
  | [], best => best
  | r :: rs, best =>
    if r.isMatch strict w && (match best with | none => true | some b => b.priority < r.priority) then
      bestRow strict w rs (some r)
    else
      bestRow strict w rs best

/-- R96: the number of the row that classifies the word. -/
def classify (strict : Bool) (w : Word) : Option Nat :=
  (bestRow strict w opcodeRows none).map OpcodeRow.row

end Sys2Proof
end

