-- ==== Sys2Proof/Machine/State.lean ====
section
/-! DEFINITION. The state of the machine (spec/10_state.md), all of it plain data, and its value after
reset (R42, R220). The fields from `inbox` on are the MODEL's own: they hold what the spec's host does to
the core and what the core shows it (R36 to R41), and where the sequencer stands inside a frame (R178). -/

namespace Sys2Proof.Machine

open Sys2Proof

/-- R31: the two states of the scheduler. -/
inductive RunState where
  | idle
  | running
deriving DecidableEq, Repr

/-- R192: the six kinds of fault. -/
inductive FaultKind where
  /-- Code 1: an instruction fetch past address 4095 (R193). -/
  | fetchOob
  /-- Code 2: a data read past address 4095, by `DRW` or `LD Vx,[I]` (R194). -/
  | memReadOob
  /-- Code 3: a data write past address 4095, by `LD B,Vx` or `LD [I],Vx` (R195). -/
  | memWriteOob
  /-- Code 4: `CALL` with `SP = 15` (R196). -/
  | stackOverflow
  /-- Code 5: `RET` with `SP = 0` (R197). -/
  | stackUnderflow
  /-- Code 6: `SKP` or `SKNP` with a key number above 15 (R198). -/
  | keyIndexOob
deriving DecidableEq, Repr

/-- R191, R192: the number of a fault kind. -/
def FaultKind.code : FaultKind → Nat
  | .fetchOob => 1
  | .memReadOob => 2
  | .memWriteOob => 3
  | .stackOverflow => 4
  | .stackUnderflow => 5
  | .keyIndexOob => 6

/-- R191: the fault record. Its field `code` is a function of `kind` and is computed, `FaultRecord.code`. -/
structure FaultRecord where
  kind : FaultKind
  /-- The offending address, stack index or key number: a natural number, possibly above 4095. -/
  addr : Nat
  /-- The instruction word, or none for `FETCH_OOB`. -/
  word : Option Word
  /-- The address the faulting instruction was, or was to be, fetched from. -/
  pc0  : Word
deriving DecidableEq, Repr

/-- R191: the record's field `code`. -/
def FaultRecord.code (r : FaultRecord) : Nat := r.kind.code

/-- The inputs of one tick: the key sample of R38 (`keys[k] = 1` when key k is down) and the random byte
of R39. Nothing constrains either. -/
structure TickInput where
  keys : BitVec 16
  rnd  : Byte
deriving DecidableEq, Repr

/-- What the host may do to the core (R11, R36, R37, R220 to R226). -/
inductive HostEvent where
  /-- Reset (R220). -/
  | reset
  /-- Program load (R223). -/
  | load (bytes : List Byte)
  /-- Start (R224). -/
  | start
  /-- Stop (R225). -/
  | stop
  /-- A frame event with the inputs of each of its ticks, in order (R37, R178). -/
  | frame (inputs : List TickInput)
deriving DecidableEq, Repr

/-- What the core tells the host by an event rather than by state it may read (R40, R41, R223, R226). -/
inductive Output where
  /-- The draw-needed pulse of one completed frame (R181). -/
  | drawNeeded (pulse : Bool)
  /-- The log of an `Unknown` word and its address (R41, R174). -/
  | unknownLog (word : Word) (pc0 : Word)
  /-- `load` accepted (R223). -/
  | loadAccepted
  /-- `load` answered `PROGRAM_TOO_LARGE` (R201, R223). -/
  | programTooLarge
  /-- A `load` or a `start` refused by the scheduler (R224, R226). -/
  | refused
deriving DecidableEq, Repr

/-- Memory: the bytes that differ from the reset contents, addresses strictly rising (Machine/Memory.lean
gives the meaning and the canonical form). -/
abbrev Memory := List Host.Cell

/-- The frame buffer: 32 rows of 64 one-bit pixels, bit `col` of row `row` being pixel `col + row*64` (R29). -/
abbrev FrameBuffer := Vector (BitVec 64) 32

structure State where
  /-- `V[0]` to `V[15]` (R20); `V[15]` is `VF` (R21). -/
  v          : Vector Byte 16
  /-- The index register `I` (R22). -/
  i          : Word
  /-- The program counter `PC` (R23). -/
  pc         : Word
  /-- The stack pointer `SP`, the index of the most recently pushed slot (R24). -/
  sp         : Byte
  /-- `Stack[0]` to `Stack[15]`, no part of `Mem` (R25). -/
  stack      : Vector Word 16
  /-- The delay timer `DT` (R26). -/
  dt         : Byte
  /-- The sound timer `ST` (R27). -/
  st         : Byte
  /-- `Mem` (R28, R50 to R59). -/
  mem        : Memory
  /-- `FB` (R29). -/
  fb         : FrameBuffer
  /-- `fb_dirty` (R30). -/
  fbDirty    : Bool
  /-- `run` (R31). -/
  run        : RunState
  /-- `tone_active` (R32), shown on port `tone` (R41). -/
  toneActive : Bool
  /-- `fault` (R33), shown on port `fault_out` (R41). -/
  fault      : Option FaultRecord
  /-- Port `keys`: the key sample of the current tick (R38). MODEL's own; a step sets it before a tick. -/
  keys       : BitVec 16
  /-- Port `rnd`: the random byte of the current tick (R39). MODEL's own; a step sets it before a tick. -/
  rnd        : Byte
  /-- Where the sequencer stands (R178): `none` between frames, otherwise the inputs of the ticks still to
  run in the current frame; with none left the frame end is next. MODEL's own. -/
  frame      : Option (List TickInput)
  /-- The host's events not yet taken, oldest first. MODEL's own. -/
  inbox      : List HostEvent
  /-- The events told to the host so far, newest first. MODEL's own; no step reads it. -/
  out        : List Output
  /-- The parameters of R5; no step changes them. -/
  cfg        : Config
deriving DecidableEq, Repr

/-- Why a step stops. A fault of the SPEC (R192) is none of these: taking it is described in full (R190,
R191, R199), so it is a next state with the record latched (assumption log 1). -/
inductive Fault where
  /-- Raised by `RET` alone, when `SP` is above 15 and `Stack[SP]` is no slot (R25 has 16). R24 keeps `SP`
  within 0 to 15, so no run reaches it (`State.Inv`). Safe. -/
  | stackSlotAbsent (sp : Nat)
deriving DecidableEq, Repr

/-- Why a step has no meaning. -/
inductive Refusal where
  /-- An instruction without a meaning, named by its mnemonic. No arm of `exec` answers it. Safe. -/
  | notModelled (mnemonic : String)
  /-- A frame event, delivered while Running, that does not carry exactly `TICKS_PER_FRAME` inputs: it is
  no frame event of R178. Raised by the host turn of the sequencer alone, never by an instruction. Safe. -/
  | malformedFrame (inputs : Nat)
deriving DecidableEq, Repr

/-- R42, R220: the state after reset under the parameters `cfg`, with what the model keeps of the host.
Memory lists nothing: every byte is at its reset value. -/
def State.resetWith (cfg : Config) (inbox : List HostEvent) (out : List Output) : State where
  v          := Vector.replicate 16 0
  i          := 0
  pc         := 0x200
  sp         := 0
  stack      := Vector.replicate 16 0
  dt         := 0
  st         := 0
  mem        := []
  fb         := Vector.replicate 32 0
  fbDirty    := false
  run        := .idle
  toneActive := false
  fault      := none
  keys       := 0
  rnd        := 0
  frame      := none
  inbox      := inbox
  out        := out
  cfg        := cfg

/-- The machine right after reset, with the default parameters and a host that has done nothing yet. -/
def State.reset : State := State.resetWith Config.default [] []

end Sys2Proof.Machine
end

