-- ==== Sys2Proof/Machine/Memory.lean ====
section
/-! DEFINITION. `Mem` (spec/20_memory.md): what a byte holds after reset, the read and the write of one
byte, the write of a run of bytes, and the canonical form of the list. An unlisted address reads as its
reset contents: the glyph bytes in the font block, 0 elsewhere (R28, R56, R220). -/

namespace Sys2Proof.Machine

open Sys2Proof

/-- R56: the glyphs of the digits 0 to 7, five bytes each. -/
def glyphsLow : List Byte :=
  [ 0xF0, 0x90, 0x90, 0x90, 0xF0,   0x20, 0x60, 0x20, 0x20, 0x70,
    0xF0, 0x10, 0xF0, 0x80, 0xF0,   0xF0, 0x10, 0xF0, 0x10, 0xF0,
    0x90, 0x90, 0xF0, 0x10, 0x10,   0xF0, 0x80, 0xF0, 0x10, 0xF0,
    0xF0, 0x80, 0xF0, 0x90, 0xF0,   0xF0, 0x10, 0x20, 0x40, 0x40 ]

/-- R56: the glyphs of the digits 8 to F. -/
def glyphsHigh : List Byte :=
  [ 0xF0, 0x90, 0xF0, 0x90, 0xF0,   0xF0, 0x90, 0xF0, 0x10, 0xF0,
    0xF0, 0x90, 0xF0, 0x90, 0x90,   0xE0, 0x90, 0xE0, 0x90, 0xE0,
    0xF0, 0x80, 0x80, 0x80, 0xF0,   0xE0, 0x90, 0x90, 0x90, 0xE0,
    0xF0, 0x80, 0xF0, 0x80, 0xF0,   0xF0, 0x80, 0xF0, 0x80, 0x80 ]

/-- R55, R56: the 80 bytes of the font block, `glyph byte k` of R220. -/
def glyphBytes : List Byte := glyphsLow ++ glyphsHigh

/-- R220: the byte that reset leaves at an address. -/
def resetByte (fontBase a : Nat) : Byte :=
  if fontBase ≤ a then glyphBytes.getD (a - fontBase) 0 else 0

/-- The byte listed at an address, if one is. -/
def Memory.listed : Memory → Nat → Option Byte
  | [], _ => none
  | (k, b) :: m, a => if k = a then some b else Memory.listed m a

/-- `Mem[a]` (R8). -/
def Memory.read (fontBase : Nat) (m : Memory) (a : Nat) : Byte :=
  (m.listed a).getD (resetByte fontBase a)

/-- List the byte at an address, in address order. -/
def Memory.enter (a : Nat) (b : Byte) : Memory → Memory
  | [] => [(a, b)]
  | (k, c) :: m =>
    if a < k then (a, b) :: (k, c) :: m
    else if a = k then (a, b) :: m
    else (k, c) :: Memory.enter a b m

/-- Take an address off the list, wherever it is listed. -/
def Memory.drop (a : Nat) : Memory → Memory
  | [] => []
  | (k, c) :: m => if k = a then Memory.drop a m else (k, c) :: Memory.drop a m

/-- `Mem[a] <- b` (R8). Writing the reset byte takes the address off the list. -/
def Memory.write (fontBase : Nat) (m : Memory) (a : Nat) (b : Byte) : Memory :=
  if b = resetByte fontBase a then m.drop a else m.enter a b

/-- R61, R223: the bytes at `a`, `a+1` and so on, in that order. -/
def Memory.writeRun (fontBase : Nat) (m : Memory) (a : Nat) : List Byte → Memory
  | [] => m
  | b :: bs => Memory.writeRun fontBase (m.write fontBase a b) (a + 1) bs

/-- The address is above the one before it, where there is one. -/
def isAbove (low : Option Nat) (a : Nat) : Bool := low.all (fun l => decide (l < a))

/-- Every listed address is above `low`, below 4096, above the one before it, and holds a byte other than
its reset byte. -/
def Memory.wfAbove (fontBase : Nat) : Option Nat → Memory → Bool
  | _, [] => true
  | low, (a, b) :: m =>
    isAbove low a && decide (a < 4096) && b != resetByte fontBase a && Memory.wfAbove fontBase (some a) m

/-- The canonical form: two memories in it that read alike at every address are the same list. -/
def Memory.wf (fontBase : Nat) (m : Memory) : Bool := Memory.wfAbove fontBase none m

end Sys2Proof.Machine
end

