-- ==== Sys2Proof/Machine/Ops.lean ====
section
/-! DEFINITION. The named operations over registers, memory and the frame buffer; taking a fault, which
is the machine's one exception (R190, R191, R199); and telling the host. There is no return from a fault
but reset (R205). -/

namespace Sys2Proof.Machine

open Sys2Proof

/-- What a meaning answers. -/
abbrev Result := Host.Outcome State Fault Refusal

/-! ## General registers (R20, R21) -/

/-- `V[r]`. -/
def State.getV (s : State) (r : Reg) : Byte := s.v[r.val]

/-- `V[r] <- b`. -/
def State.setV (s : State) (r : Reg) (b : Byte) : State := { s with v := s.v.set r.val b }

/-- The number of `VF`. -/
abbrev vF : Reg := 15

/-- R9, R133: the flag is written first and the result second, so that with `x = 15` the result stays. -/
def State.setFlagThenV (s : State) (flag : Byte) (x : Reg) (result : Byte) : State :=
  (s.setV vF flag).setV x result

/-- `V[k] <- b` for the bytes in order, `k` counting up from the given number; a number above 15 names no
register and is not reached by R146, which moves at most 16. -/
def State.setVFrom (s : State) (k : Nat) : List Byte → State
  | [] => s
  | b :: bs => if h : k < 16 then (s.setV ⟨k, h⟩ b).setVFrom (k + 1) bs else s

/-! ## `PC`, `I`, `SP` and the stack, the timers -/

/-- `PC <- a`. -/
def State.setPC (s : State) (a : Word) : State := { s with pc := a }

/-- `I <- a`. -/
def State.setI (s : State) (a : Word) : State := { s with i := a }

/-- `DT <- b`. -/
def State.setDT (s : State) (b : Byte) : State := { s with dt := b }

/-- `ST <- b`. -/
def State.setST (s : State) (b : Byte) : State := { s with st := b }

/-- R103: `SP <- k; Stack[k] <- a`, for a slot number `k`. -/
def State.pushAt (s : State) (k : Fin 16) (a : Word) : State :=
  { s with sp := BitVec.ofNat 8 k.val, stack := s.stack.set k.val a }

/-- R101: `PC <- Stack[k]; SP <- SP - 1`. -/
def State.popFrom (s : State) (k : Fin 16) : State :=
  { s with pc := s.stack[k.val], sp := s.sp - 1 }

/-! ## Memory (R57 to R61) -/

/-- `Mem[a]`. -/
def State.readByte (s : State) (a : Nat) : Byte := s.mem.read s.cfg.fontBase.val a

/-- `Mem[a+k] <- bs[k]` for every `k`. -/
def State.writeBytes (s : State) (a : Nat) (bs : List Byte) : State :=
  { s with mem := s.mem.writeRun s.cfg.fontBase.val a bs }

/-- R59 to R61, R171: the bound on an access of `n` bytes at `a`, `n` at least 1, in exact arithmetic. An
access past 4095 gives its lowest out-of-range address, `max(a, 4096)`. -/
def boundError (a n : Nat) : Option Nat :=
  if a + n - 1 > 4095 then some (max a 4096) else none

/-- `Mem[a], ..., Mem[a+n-1]`. -/
def State.bytesAt (s : State) (a : Nat) : Nat → List Byte
  | 0 => []
  | n + 1 => s.readByte a :: s.bytesAt (a + 1) n

/-- R60: `MemRead(a, n)`, the bytes or the out-of-range address. -/
def State.memRead (s : State) (a n : Nat) : Except Nat (List Byte) :=
  match boundError a n with
  | some bad => .error bad
  | none => .ok (s.bytesAt a n)

/-- R61: `MemWrite(a, n, bs)` with `n` the length of `bs`; the check precedes every write. -/
def State.memWrite (s : State) (a : Nat) (bs : List Byte) : Except Nat State :=
  match boundError a bs.length with
  | some bad => .error bad
  | none => .ok (s.writeBytes a bs)

/-- R57: the big-endian word at an address. -/
def State.wordAt (s : State) (a : Nat) : Word := wordOfBytes (s.readByte a) (s.readByte (a + 1))

/-! ## Frame buffer (R29, R64) -/

/-- `FB[p]`, for `p` below 2048; no pixel is lit past the last one. -/
def FrameBuffer.pixel (fb : FrameBuffer) (p : Nat) : Bool :=
  if h : p / 64 < 32 then fb[p / 64].getLsbD (p % 64) else false

/-- `FB[p] <- FB[p] XOR 1` at column `col` and row `row`. -/
def FrameBuffer.flip (fb : FrameBuffer) (col : Fin 64) (row : Fin 32) : FrameBuffer :=
  fb.set row.val (fb[row.val] ^^^ (1#64 <<< col.val))

/-- `FB[p]`. -/
def State.pixel (s : State) (p : Nat) : Bool := FrameBuffer.pixel s.fb p

/-! ## Telling the host (R41) -/

/-- Emit an event. -/
def State.emit (s : State) (o : Output) : State := { s with out := o :: s.out }

/-! ## Taking a fault (R190, R191, R199) -/

/-- The halt: the record is latched if none is, the scheduler goes to Idle, and the rest of the frame is
abandoned (R182). Nothing else changes: `PC` keeps what fetch left in it. -/
def State.takeFault (s : State) (r : FaultRecord) : State :=
  { s with
    fault := (match s.fault with
      | none => some r
      | some old => some old)
    run := .idle
    frame := none }

/-- `raise kind(addr)` inside the rule of the instruction `i`: its word is recorded, and the address it was
fetched from, which is 2 below `PC` during execution (R8, R23). -/
def raise (i : Instr) (kind : FaultKind) (addr : Nat) (s : State) : Result :=
  .next (s.takeFault { kind := kind, addr := addr, word := some (encode i), pc0 := s.pc - 2 })

/-- R171: `raise FETCH_OOB(addr)`; no word was fetched and `PC` is unchanged. -/
def raiseFetch (addr : Nat) (s : State) : Result :=
  .next (s.takeFault { kind := .fetchOob, addr := addr, word := none, pc0 := s.pc })

end Sys2Proof.Machine
end

