-- ==== Sys2Proof/Machine/Operands.lean ====
section
/-! DEFINITION. The operand forms: a skip over the next instruction, the address of a glyph, the decimal
digits of a byte, the registers a block transfer moves, the key an instruction samples. Register,
immediate and address literals are the fields themselves (R83); the one data addressing mode is `I` with
an ascending offset (spec/42_index_and_memory.md). -/

namespace Sys2Proof.Machine

open Sys2Proof

/-- R104 to R107, R160, R161: `if c: PC <- PC + 2`. -/
def State.skipIf (s : State) (c : Bool) : State := if c then s.setPC (s.pc + 2) else s

/-- The effective address of the first byte of a data access: `I`, as a natural number (R59). -/
def State.base (s : State) : Nat := s.i.toNat

/-- R142: the address of the glyph of a digit, the formula applied to any byte. -/
def glyphAddress (fontBase : Nat) (digit : Byte) : Word := BitVec.ofNat 16 (fontBase + 5 * digit.toNat)

/-- R143: the hundreds, tens and ones digit of a byte, in that order. -/
def bcdDigits (b : Byte) : List Byte :=
  [ BitVec.ofNat 8 (b.toNat / 100), BitVec.ofNat 8 (b.toNat / 10 % 10), BitVec.ofNat 8 (b.toNat % 10) ]

/-- R145: `[V[0], V[1], ..., V[x]]`. -/
def State.regsUpTo (s : State) (x : Reg) : List Byte := s.v.toList.take (x.val + 1)

/-- `keys[k] = 1` (R38), for `k` up to 15. -/
def State.keyDown (s : State) (k : Nat) : Bool := s.keys.getLsbD k

/-- R162: the first key down among `k`, `k + 1`, ..., over the given number of keys. -/
def State.firstKeyFrom (s : State) (k : Nat) : Nat → Option Nat
  | 0 => none
  | n + 1 => if s.keyDown k then some k else s.firstKeyFrom (k + 1) n

/-- R162: the lowest-numbered key down among 0 to `KEYSCAN_LAST`. -/
def State.scanKeys (s : State) : Option Nat := s.firstKeyFrom 0 (s.cfg.keyscanLast.val + 1)

end Sys2Proof.Machine
end

