-- ==== Sys2Proof/Machine/Control.lean ====
section
/-! DEFINITION. Control flow (spec/40_control_flow.md) and the `Unknown` operation (R174). When a meaning
starts, `PC` is already `pc0 + 2` (R23). No target is checked here; only a later fetch can fault (R109). -/

namespace Sys2Proof.Machine

open Sys2Proof

/-- R100: `SYS` is a no-op; `addr` is ignored. -/
def execSys (_addr : Addr12) (s : State) : Result := .next s

/-- R101: the two checks are on `SP` before anything is written. With `SP` above 15, which R24 rules out,
there is no slot to read. -/
def execRet (s : State) : Result :=
  if s.sp = 0 then raise .ret .stackUnderflow 0 s
  else if h : s.sp.toNat < 16 then .next (s.popFrom ⟨s.sp.toNat, h⟩)
  else .fault (.stackSlotAbsent s.sp.toNat)

/-- R102. -/
def execJp (addr : Addr12) (s : State) : Result := .next (s.setPC (zextAddr addr))

/-- R103: the return address pushed is `PC`, the address after the `CALL`. -/
def execCall (addr : Addr12) (s : State) : Result :=
  if h : s.sp.toNat < 15 then
    .next ((s.pushAt ⟨s.sp.toNat + 1, by omega⟩ s.pc).setPC (zextAddr addr))
  else raise (.call addr) .stackOverflow (s.sp.toNat + 1) s

/-- R104. -/
def execSeImm (x : Reg) (kk : Byte) (s : State) : Result := .next (s.skipIf (s.getV x == kk))

/-- R105. -/
def execSneImm (x : Reg) (kk : Byte) (s : State) : Result := .next (s.skipIf (s.getV x != kk))

/-- R106; `n` is ignored (R88). -/
def execSeReg (x y : Reg) (_n : Nibble) (s : State) : Result :=
  .next (s.skipIf (s.getV x == s.getV y))

/-- R107; `n` is ignored (R88). -/
def execSneReg (x y : Reg) (_n : Nibble) (s : State) : Result :=
  .next (s.skipIf (s.getV x != s.getV y))

/-- R108: the sum of a 12-bit and an 8-bit number, which fits 16 bits, not reduced further. -/
def execJpV0 (addr : Addr12) (s : State) : Result :=
  .next (s.setPC (zextAddr addr + zextByte (s.getV 0)))

/-- R174: a no-op; the log of R41 is emitted, with the address the word was fetched from. -/
def execUnknown (word : Word) (s : State) : Result := .next (s.emit (.unknownLog word (s.pc - 2)))

end Sys2Proof.Machine
end

