-- ==== Sys2Proof/Machine/Flags.lean ====
section
/-! DEFINITION. Every flag computation of the spec (R21, R119): carry, no borrow, the bit a shift puts
out. The collision flag of `DRW` is computed while drawing (Machine/Display.lean). A flag is the byte 0
or 1. -/

namespace Sys2Proof.Machine

open Sys2Proof

/-- A flag as the byte that `VF` receives (R21). -/
def flagByte (f : Bool) : Byte := if f then 1 else 0

/-- R126: 1 exactly when the exact sum exceeds 255. -/
def carryFlag (a b : Byte) : Bool := decide (255 < a.toNat + b.toNat)

/-- R127, R130: 1 exactly when `a - b` needs no borrow, equality included. -/
def noBorrowFlag (a b : Byte) : Bool := decide (b.toNat ≤ a.toNat)

/-- R128: the bit a right shift puts out. -/
def lowBitFlag (a : Byte) : Bool := a.getLsbD 0

/-- R131: the bit a left shift puts out. -/
def highBitFlag (a : Byte) : Bool := a.getLsbD 7

end Sys2Proof.Machine
end

