-- ==== Sys2Proof/Machine/Display.lean ====
section
/-! DEFINITION. The display (spec/43_display.md): `CLS` and `DRW`, the latter as the two loops of R152
over rows and columns, carrying the frame buffer and the collision bit. -/

namespace Sys2Proof.Machine

open Sys2Proof

/-- The frame buffer while a sprite is drawn, and whether a lit pixel has become unlit so far. -/
abbrev Canvas := FrameBuffer × Bool

/-- R150: the column of pixel column `c` of a sprite at `vx`. -/
def drawCol (vx c : Nat) : Fin 64 := ⟨(vx + c) % 64, Nat.mod_lt _ (by decide)⟩

/-- R150: the row of sprite row `r` of a sprite at `vy`. -/
def drawRow (vy r : Nat) : Fin 32 := ⟨(vy + r) % 32, Nat.mod_lt _ (by decide)⟩

/-- R152: one sprite bit; a bit of 0 leaves its pixel alone. -/
def drawBit (col : Fin 64) (row : Fin 32) (bit : Bool) (cv : Canvas) : Canvas :=
  if bit then (FrameBuffer.flip cv.1 col row, cv.2 || FrameBuffer.pixel cv.1 (col.val + row.val * 64))
  else cv

/-- R150, R152: one sprite row, columns 0 to 7; column `c` is bit `7 - c` of the byte. -/
def drawByte (vx : Nat) (row : Fin 32) (b : Byte) (cv : Canvas) : Canvas :=
  (List.range 8).foldl (fun acc c => drawBit (drawCol vx c) row (b.getLsbD (7 - c)) acc) cv

/-- R152: the sprite rows `r`, `r + 1` and so on. -/
def drawBytes (vx vy : Nat) (r : Nat) : List Byte → Canvas → Canvas
  | [], cv => cv
  | b :: bs, cv => drawBytes vx vy (r + 1) bs (drawByte vx (drawRow vy r) b cv)

/-- R152: `rows = MemRead(I, n) if n > 0 else []`. -/
def State.spriteRows (s : State) (n : Nibble) : Except Nat (List Byte) :=
  if n.val = 0 then .ok [] else s.memRead s.base n.val

/-- R152: the state after the sprite rows are drawn at `(V[x], V[y])`, with `VF` and `fb_dirty` written. -/
def State.drawSprite (s : State) (x y : Reg) (rows : List Byte) : State :=
  let cv := drawBytes (s.getV x).toNat (s.getV y).toNat 0 rows (s.fb, false)
  { s with fb := cv.1, fbDirty := true }.setV vF (flagByte cv.2)

/-- R151: every pixel is written 0; neither `VF` nor `fb_dirty` is. -/
def execCls (s : State) : Result := .next { s with fb := Vector.replicate 32 0 }

/-- R152, R153. -/
def execDrw (x y : Reg) (n : Nibble) (s : State) : Result :=
  match s.spriteRows n with
  | .ok rows => .next (s.drawSprite x y rows)
  | .error bad => raise (.drw x y n) .memReadOob bad s

end Sys2Proof.Machine
end

