-- ==== Sys2Proof/Machine/IndexMemory.lean ====
section
/-! DEFINITION. The index register and memory (spec/42_index_and_memory.md). No instruction here changes
`I` through its memory access (R144). -/

namespace Sys2Proof.Machine

open Sys2Proof

/-- R140. -/
def execLdI (addr : Addr12) (s : State) : Result := .next (s.setI (zextAddr addr))

/-- R141: a 16-bit wrapping add; no flag is written. -/
def execAddI (x : Reg) (s : State) : Result := .next (s.setI (s.i + zextByte (s.getV x)))

/-- R142: no memory is accessed and `V[x]` is not masked. -/
def execLdF (x : Reg) (s : State) : Result :=
  .next (s.setI (glyphAddress s.cfg.fontBase.val (s.getV x)))

/-- R143. -/
def execLdB (x : Reg) (s : State) : Result :=
  match s.memWrite s.base (bcdDigits (s.getV x)) with
  | .ok t => .next t
  | .error bad => raise (.ldB x) .memWriteOob bad s

/-- R145. -/
def execStRegs (x : Reg) (s : State) : Result :=
  match s.memWrite s.base (s.regsUpTo x) with
  | .ok t => .next t
  | .error bad => raise (.stRegs x) .memWriteOob bad s

/-- R146. -/
def execLdRegs (x : Reg) (s : State) : Result :=
  match s.memRead s.base (x.val + 1) with
  | .ok bytes => .next (s.setVFrom 0 bytes)
  | .error bad => raise (.ldRegs x) .memReadOob bad s

end Sys2Proof.Machine
end

