-- ==== Sys2Proof/Machine/KeysTimers.lean ====
section
/-! DEFINITION. Keys and timers (spec/44_keys_and_timers.md). The keys are the tick's sample (R38). -/

namespace Sys2Proof.Machine

open Sys2Proof

/-- R160, R161: a key skip by the instruction `i`: the key number is the value of `V[x]`, and the skip is
taken when the key's state is `down`. -/
def keySkip (i : Instr) (x : Reg) (down : Bool) (s : State) : Result :=
  if (s.getV x).toNat > 15 then raise i .keyIndexOob (s.getV x).toNat s
  else .next (s.skipIf (s.keyDown (s.getV x).toNat == down))

/-- R160. -/
def execSkp (x : Reg) (s : State) : Result := keySkip (.skp x) x true s

/-- R161. -/
def execSknp (x : Reg) (s : State) : Result := keySkip (.sknp x) x false s

/-- R162: one scan; with no key down nothing is written. -/
def execLdVxK (x : Reg) (s : State) : Result :=
  .next (match s.scanKeys with
    | some k => s.setV x (BitVec.ofNat 8 k)
    | none => s)

/-- R163. -/
def execLdVxDT (x : Reg) (s : State) : Result := .next (s.setV x s.dt)

/-- R164. -/
def execLdDTVx (x : Reg) (s : State) : Result := .next (s.setDT (s.getV x))

/-- R165: `tone_active` is not recomputed here. -/
def execLdSTVx (x : Reg) (s : State) : Result := .next (s.setST (s.getV x))

end Sys2Proof.Machine
end

