-- ==== Sys2Proof/Machine/LoadAlu.lean ====
section
/-! DEFINITION. Register loads and the ALU (spec/41_load_and_alu.md). Every operand is read before
anything is written (R9); 8-bit arithmetic wraps (R119). -/

namespace Sys2Proof.Machine

open Sys2Proof

/-- R120. -/
def execLdImm (x : Reg) (kk : Byte) (s : State) : Result := .next (s.setV x kk)

/-- R121: no flag is written. -/
def execAddImm (x : Reg) (kk : Byte) (s : State) : Result := .next (s.setV x (s.getV x + kk))

/-- R122. -/
def execLdReg (x y : Reg) (s : State) : Result := .next (s.setV x (s.getV y))

/-- R123: no flag is written. -/
def execOrReg (x y : Reg) (s : State) : Result := .next (s.setV x (s.getV x ||| s.getV y))

/-- R124: no flag is written. -/
def execAndReg (x y : Reg) (s : State) : Result := .next (s.setV x (s.getV x &&& s.getV y))

/-- R125: no flag is written. -/
def execXorReg (x y : Reg) (s : State) : Result := .next (s.setV x (s.getV x ^^^ s.getV y))

/-- R126. -/
def execAddReg (x y : Reg) (s : State) : Result :=
  .next (s.setFlagThenV (flagByte (carryFlag (s.getV x) (s.getV y))) x (s.getV x + s.getV y))

/-- R127. -/
def execSubReg (x y : Reg) (s : State) : Result :=
  .next (s.setFlagThenV (flagByte (noBorrowFlag (s.getV x) (s.getV y))) x (s.getV x - s.getV y))

/-- R128: `V[x]` is shifted in place; `y` is ignored (R93). -/
def execShr (x _y : Reg) (s : State) : Result :=
  .next (s.setFlagThenV (flagByte (lowBitFlag (s.getV x))) x (s.getV x >>> 1))

/-- R130: the direction of the subtraction is the parameter `SUBN_CANONICAL`. -/
def execSubn (x y : Reg) (s : State) : Result :=
  let result := if s.cfg.subnCanonical then s.getV y - s.getV x else s.getV x - s.getV y
  .next (s.setFlagThenV (flagByte (noBorrowFlag (s.getV y) (s.getV x))) x result)

/-- R131: `V[x]` is shifted in place; `y` is ignored (R93). -/
def execShl (x _y : Reg) (s : State) : Result :=
  .next (s.setFlagThenV (flagByte (highBitFlag (s.getV x))) x (s.getV x <<< 1))

/-- R132: `rnd` is the tick's input (R39). -/
def execRnd (x : Reg) (kk : Byte) (s : State) : Result := .next (s.setV x (s.rnd &&& kk))

end Sys2Proof.Machine
end

