-- ==== Sys2Proof/Machine/Sequencer.lean ====
section
/-! DEFINITION. The sequencer (spec/45_sequencer.md) and the host's operations (spec/70_reset_and_hazards.md):
fetch and the tick, the frame end, reset, load, start, stop and the frame event, and which of them one step
does. One step is one tick, one frame end, or the taking of one host event (D37, assumption log 2). -/

namespace Sys2Proof.Machine

open Sys2Proof

/-! ## The tick (R170 to R173) -/

/-- R171: the word at `PC`, or the out-of-range address of the fetch. -/
def State.fetch (s : State) : Except Nat Word :=
  match boundError s.pc.toNat 2 with
  | some bad => .error bad
  | none => .ok (s.wordAt s.pc.toNat)

/-- The state in which a tick begins: the tick's inputs are on the ports (R38, R39) and `rest` are the
inputs of the ticks after it. -/
def State.beginTick (s : State) (input : TickInput) (rest : List TickInput) : State :=
  { s with keys := input.keys, rnd := input.rnd, frame := some rest }

/-- R170: fetch, decode, execute, as one step. Fetch has advanced `PC` by 2 when the instruction runs. -/
def tick (input : TickInput) (rest : List TickInput) (s : State) : Result :=
  let s := s.beginTick input rest
  match s.fetch with
  | .ok w => exec (decode s.cfg.strictXY0 w) (s.setPC (s.pc + 2))
  | .error bad => raiseFetch bad s

/-! ## The frame end (R178 to R181) -/

/-- R179: one count of one timer; a timer at 0 stays at 0. -/
def countDown (t : Byte) : Byte := if t = 0 then 0 else t - 1

/-- R178: the countdown, then the tone signal from the new `ST` (R180), then the draw-needed pulse (R181). -/
def State.frameEnd (s : State) : State :=
  let st' := countDown s.st
  { s with
    dt := countDown s.dt
    st := st'
    toneActive := st' != 0
    fbDirty := false
    frame := none }.emit (.drawNeeded s.fbDirty)

/-! ## The host's operations (R220 to R226) -/

/-- R220: every piece of state of R42 at its reset value. The parameters, the host's later events and what
has been told to the host are no state of R42 and stay. -/
def State.hostReset (s : State) : State := State.resetWith s.cfg s.inbox s.out

/-- R223, R226. -/
def State.hostLoad (s : State) (bytes : List Byte) : State :=
  if s.run = .running then s.emit .refused
  else if bytes.length > 3584 then s.emit .programTooLarge
  else (s.writeBytes 512 bytes).emit .loadAccepted

/-- R224, R226. -/
def State.hostStart (s : State) : State :=
  if s.run = .idle ∧ s.fault = none then { s with run := .running } else s.emit .refused

/-- R225. -/
def State.hostStop (s : State) : State := { s with run := .idle }

/-- R178, R182: a frame event begins a frame while Running and does nothing while Idle. -/
def hostFrame (inputs : List TickInput) (s : State) : Result :=
  if s.run = .idle then .next s
  else if inputs.length = s.cfg.ticksPerFrame then .next { s with frame := some inputs }
  else .refused (.malformedFrame inputs.length)

/-- One host event. -/
def hostEvent (e : HostEvent) (s : State) : Result :=
  match e with
  | .reset => .next s.hostReset
  | .load bytes => .next (s.hostLoad bytes)
  | .start => .next s.hostStart
  | .stop => .next s.hostStop
  | .frame inputs => hostFrame inputs s

/-- Between frames the oldest host event is taken; with none the machine waits, and nothing changes. -/
def hostTurn (s : State) : Result :=
  match s.inbox with
  | [] => .next s
  | e :: rest => hostEvent e { s with inbox := rest }

/-! ## One step -/

/-- R170, R178: while Running and inside a frame, the next tick, or the frame end when no tick is left;
otherwise a host event. -/
def sequencerStep (s : State) : Result :=
  match s.run, s.frame with
  | .running, some (input :: rest) => tick input rest s
  | .running, some [] => .next s.frameEnd
  | .running, none => hostTurn s
  | .idle, _ => hostTurn s

/-! ## Placing one word where the next step fetches -/

/-- The state Running, inside a frame with a tick to run, its inputs those of the frame or, where the
state is between ticks of no frame, what the ports hold. -/
def State.withTickPending (s : State) : State :=
  { s with
    run := .running
    frame := (match s.frame with
      | some (input :: rest) => some (input :: rest)
      | some [] => some (List.replicate (max 1 s.cfg.ticksPerFrame) ⟨s.keys, s.rnd⟩)
      | none => some (List.replicate (max 1 s.cfg.ticksPerFrame) ⟨s.keys, s.rnd⟩)) }

/-- The word at `PC` is `w`, or, where no word can be fetched at `PC`, at the entry point 0x200 with `PC`
set there. -/
def State.withWordAtPC (s : State) (w : Word) : State :=
  let a := if s.pc.toNat + 1 > 4095 then 0x200#16 else s.pc
  (s.setPC a).writeBytes a.toNat (bytesOfWord w)

end Sys2Proof.Machine
end

