-- ==== Sys2Proof/Machine/Step.lean ====
section
/-! DEFINITION. One step of the machine, and the placing of one instruction where it fetches. -/

namespace Sys2Proof.Machine

open Sys2Proof

/-- One step: a tick, a frame end, or a host event (Machine/Sequencer.lean). -/
def step : State → Host.Outcome State Fault Refusal := sequencerStep

/-- `s` with the instruction whose bits are `w` stored where the next step fetches, and that step a tick
(assumption log 15). -/
def State.withFetchWord (s : State) (nbits w : Nat) : State :=
  (s.withWordAtPC (BitVec.ofNat 16 (w % 2 ^ nbits))).withTickPending

end Sys2Proof.Machine
end

