-- ==== Sys2Proof/Safety.lean ====
section
/-! DEFINITION. The terms in which claims are made: the parts of a state and which of them two states share
(for frames), the invariant that every run keeps, and a state in which a tick is due. -/

namespace Sys2Proof.Machine

open Sys2Proof

/-! ## Frames -/

/-- A part of the state: a field, or one cell of a field that has cells. -/
inductive Part where
  | v (r : Reg)
  | i
  | pc
  | sp
  | stack (k : Fin 16)
  | dt
  | st
  | mem (a : Nat)
  | fb (p : Nat)
  | fbDirty
  | run
  | toneActive
  | fault
  | keys
  | rnd
  | frame
  | inbox
  | out
  | cfg
deriving DecidableEq, Repr

/-- The part reads the same in both states; memory byte by byte, the frame buffer pixel by pixel. -/
def Part.Same (s t : State) : Part → Prop
  | .v r => t.getV r = s.getV r
  | .i => t.i = s.i
  | .pc => t.pc = s.pc
  | .sp => t.sp = s.sp
  | .stack k => t.stack[k.val] = s.stack[k.val]
  | .dt => t.dt = s.dt
  | .st => t.st = s.st
  | .mem a => t.readByte a = s.readByte a
  | .fb p => t.pixel p = s.pixel p
  | .fbDirty => t.fbDirty = s.fbDirty
  | .run => t.run = s.run
  | .toneActive => t.toneActive = s.toneActive
  | .fault => t.fault = s.fault
  | .keys => t.keys = s.keys
  | .rnd => t.rnd = s.rnd
  | .frame => t.frame = s.frame
  | .inbox => t.inbox = s.inbox
  | .out => t.out = s.out
  | .cfg => t.cfg = s.cfg

/-- Every part outside `W` is unchanged from `s` to `t`. -/
def KeepsExcept (W : Part → Prop) (s t : State) : Prop := ∀ p, ¬ W p → Part.Same s t p

/-! ## The invariant -/

/-- What holds of every state a run reaches. -/
structure State.Inv (s : State) : Prop where
  /-- Memory is in canonical form. -/
  memWf      : s.mem.wf s.cfg.fontBase.val = true
  /-- R24: the legal values of `SP`. -/
  spLegal    : s.sp.toNat ≤ 15
  /-- R23: the largest value any rule puts in `PC` is 0x10FE. -/
  pcBound    : s.pc.toNat ≤ 0x10FE
  /-- R101: what `CALL` pushed, in every slot a `RET` may still read, is 2 to 4096. -/
  returns    : ∀ k : Fin 16, 1 ≤ k.val → k.val ≤ s.sp.toNat →
                 2 ≤ s.stack[k.val].toNat ∧ s.stack[k.val].toNat ≤ 4096
  /-- R25: `Stack[0]` is never written. -/
  bottomSlot : s.stack[0] = 0
  /-- R199: a latched fault keeps the scheduler Idle. -/
  faultHalts : s.fault ≠ none → s.run = .idle
  /-- R191: the word is absent exactly for `FETCH_OOB`. -/
  faultWord  : ∀ r, s.fault = some r → (r.word = none ↔ r.kind = .fetchOob)
  /-- R178: a frame is under way only while Running. -/
  frameRuns  : s.frame ≠ none → s.run = .running
  /-- R178: at most `TICKS_PER_FRAME` ticks of a frame are left. -/
  frameShort : ∀ l, s.frame = some l → l.length ≤ s.cfg.ticksPerFrame
  /-- R5. -/
  ticksValid : s.cfg.Valid

/-! ## A tick that is due -/

/-- The next step is a tick with these inputs (R170, R178). -/
def State.TickDue (s : State) (input : TickInput) (rest : List TickInput) : Prop :=
  s.run = .running ∧ s.frame = some (input :: rest)

/-- The next step takes the host's oldest event (R11, R66: only between frames, or while Idle). -/
def State.TakesHostEvent (s : State) (e : HostEvent) (rest : List HostEvent) : Prop :=
  (s.run = .idle ∨ s.frame = none) ∧ s.inbox = e :: rest

/-- R228: the launch state of a program: reset, one load, start. -/
def State.launch (cfg : Config) (program : List Byte) : State :=
  ((State.resetWith cfg [] []).hostLoad program).hostStart

end Sys2Proof.Machine
end

