-- ==== Sys2Proof/Certificates/Slice0/Obligations.lean ====
section
/-! DEFINITION. The statements for the provers. Each formalises rules of spec/, named in its docstring; the
helpers before them spell out tables and predicates of the spec in the statements' own words. Bit patterns
of instructions are assumption log 10, the layout of the fault record is log 1. -/

open Sys2Proof Sys2Proof.Machine

namespace Sys2Proof.Claims

/-! ## Helpers -/

/-- `t` is what `raise kind(addr)` leaves of `s` (R190, R199): a record of that kind and address is latched,
the scheduler is Idle, the frame is abandoned, and nothing else has changed. -/
def Halted (kind : FaultKind) (addr : Nat) (s t : State) : Prop :=
  (∃ r, t.fault = some r ∧ r.kind = kind ∧ r.addr = addr) ∧ t.run = .idle ∧ t.frame = none ∧
    KeepsExcept (fun p => p = .fault ∨ p = .run ∨ p = .frame) s t

/-- R192, the table row by row: the fault an instruction raises in a state, with the address recorded. -/
def faultOf (i : Instr) (s : State) : Option (FaultKind × Nat) :=
  match i with
  | .drw _ _ n =>
    if n.val > 0 ∧ s.i.toNat + n.val - 1 > 4095 then some (.memReadOob, max s.i.toNat 4096) else none
  | .ldRegs x => if s.i.toNat + x.val > 4095 then some (.memReadOob, max s.i.toNat 4096) else none
  | .ldB _ => if s.i.toNat + 2 > 4095 then some (.memWriteOob, max s.i.toNat 4096) else none
  | .stRegs x => if s.i.toNat + x.val > 4095 then some (.memWriteOob, max s.i.toNat 4096) else none
  | .call _ => if s.sp.toNat ≥ 15 then some (.stackOverflow, s.sp.toNat + 1) else none
  | .ret => if s.sp.toNat = 0 then some (.stackUnderflow, 0) else none
  | .skp x | .sknp x => if (s.getV x).toNat > 15 then some (.keyIndexOob, (s.getV x).toNat) else none
  | _ => none

/-- R150: a set bit of the sprite of `DRW Vx,Vy,n` lies on pixel `p`. -/
def SpriteOn (s : State) (x y : Reg) (n : Nibble) (p : Nat) : Prop :=
  ∃ r c, r < n.val ∧ c < 8 ∧ (s.readByte (s.i.toNat + r)).getLsbD (7 - c) = true ∧
    p = ((s.getV x).toNat + c) % 64 + ((s.getV y).toNat + r) % 32 * 64

/-- R21: the instructions that write `VF`: the six of the table, and any other whose destination is `VF`. -/
def writesVF (i : Instr) : Bool :=
  match i with
  | .addReg _ _ | .subReg _ _ | .shr _ _ | .subn _ _ | .shl _ _ | .drw _ _ _ => true
  | .ldImm x _ | .addImm x _ | .ldReg x _ | .orReg x _ | .andReg x _ | .xorReg x _ | .rnd x _
  | .ldVxDT x | .ldVxK x | .ldRegs x => x == 15
  | _ => false

/-- R23, the table: `PC` after a tick, as an exact number, `PC` being `pc0 + 2` in `s`. -/
def pcAfter (i : Instr) (s : State) : Nat :=
  match i with
  | .seImm x kk => if s.getV x = kk then s.pc.toNat + 2 else s.pc.toNat
  | .sneImm x kk => if s.getV x ≠ kk then s.pc.toNat + 2 else s.pc.toNat
  | .seReg x y _ => if s.getV x = s.getV y then s.pc.toNat + 2 else s.pc.toNat
  | .sneReg x y _ => if s.getV x ≠ s.getV y then s.pc.toNat + 2 else s.pc.toNat
  | .skp x => if s.keys.getLsbD (s.getV x).toNat = true then s.pc.toNat + 2 else s.pc.toNat
  | .sknp x => if s.keys.getLsbD (s.getV x).toNat = false then s.pc.toNat + 2 else s.pc.toNat
  | .jp addr => addr.toNat
  | .call addr => addr.toNat
  | .jpV0 addr => addr.toNat + (s.getV 0).toNat
  | .ret => if h : s.sp.toNat < 16 then s.stack[s.sp.toNat].toNat else 0
  | _ => s.pc.toNat

/-- R56, the table row by row: the five bytes of each glyph. -/
def fontRows : List (List Byte) :=
  [ [0xF0, 0x90, 0x90, 0x90, 0xF0], [0x20, 0x60, 0x20, 0x20, 0x70], [0xF0, 0x10, 0xF0, 0x80, 0xF0],
    [0xF0, 0x10, 0xF0, 0x10, 0xF0], [0x90, 0x90, 0xF0, 0x10, 0x10], [0xF0, 0x80, 0xF0, 0x10, 0xF0],
    [0xF0, 0x80, 0xF0, 0x90, 0xF0], [0xF0, 0x10, 0x20, 0x40, 0x40], [0xF0, 0x90, 0xF0, 0x90, 0xF0],
    [0xF0, 0x90, 0xF0, 0x10, 0xF0], [0xF0, 0x90, 0xF0, 0x90, 0x90], [0xE0, 0x90, 0xE0, 0x90, 0xE0],
    [0xF0, 0x80, 0x80, 0x80, 0xF0], [0xE0, 0x90, 0x90, 0x90, 0xE0], [0xF0, 0x80, 0xF0, 0x80, 0xF0],
    [0xF0, 0x80, 0xF0, 0x80, 0x80] ]

/-- The byte at `a` once the bytes `bs` have been stored at `I`, `I + 1` and so on: a stored byte, or the
byte that was there. -/
def byteOnceStored (s : State) (bs : List Byte) (a : Nat) : Byte :=
  if s.i.toNat ≤ a then bs.getD (a - s.i.toNat) (s.readByte a) else s.readByte a

/-- A result with another random byte on the port of its next state. -/
def Result.withRnd (b : Byte) : Result → Result
  | .next t => .next { t with rnd := b }
  | .fault f => .fault f
  | .refused r => .refused r

/-- A result with another key sample on the port of its next state. -/
def Result.withKeys (k : BitVec 16) : Result → Result
  | .next t => .next { t with keys := k }
  | .fault f => .fault f
  | .refused r => .refused r

end Sys2Proof.Claims

open Sys2Proof.Claims

/-! ## Encoding -/

/-- R80 to R91, R93: decoding the word of a well-formed instruction gives that instruction back, every
operand at every value, under both settings of `STRICT_XY0`. -/
def Obligations.DecodeEncodeRoundTrip : Prop :=
  ∀ (strict : Bool) (i : Instr), i.wellFormed strict = true → decode strict (encode i) = i

/-- R84: every one of the 65536 words has exactly one classification, which is well formed and whose word
it is. -/
def Obligations.EveryWordDecodesToItsOwnInstruction : Prop :=
  ∀ (strict : Bool) (w : Word),
    (decode strict w).wellFormed strict = true ∧ encode (decode strict w) = w ∧
    ∀ i : Instr, i.wellFormed strict = true → encode i = w → i = decode strict w

/-- R85, R96: the decision tree answers the row of the opcode table that the table's own procedure (mask,
match, greatest priority) picks, for every word and both settings of `STRICT_XY0`. -/
def Obligations.DecoderFollowsOpcodeTable : Prop :=
  ∀ (strict : Bool) (w : Word), classify strict w = some (decode strict w).row

/-- R85 to R90: single words of every one of the sixteen families (values of `msn`, R12), written out in
hexadecimal as spec/95_test_vectors.md has them: T2, and T147 for 0xE39F. -/
def Obligations.SampleWordsDecode : Prop :=
  decode false 0x00E0 = .cls ∧ decode false 0x00EE = .ret ∧ decode false 0x0000 = .sys 0x000 ∧
  decode false 0x1ABC = .jp 0xABC ∧ decode false 0x2300 = .call 0x300 ∧
  decode false 0x3342 = .seImm 3 0x42 ∧ decode false 0x4342 = .sneImm 3 0x42 ∧
  decode false 0x5127 = .seReg 1 2 7 ∧ decode true 0x5127 = .unknown 0x5127 ∧
  decode false 0x6AFF = .ldImm 10 0xFF ∧ decode false 0x7A01 = .addImm 10 1 ∧
  decode false 0x8126 = .shr 1 2 ∧ decode false 0x812E = .shl 1 2 ∧
  decode false 0x812F = .unknown 0x812F ∧ decode false 0x9120 = .sneReg 1 2 0 ∧
  decode false 0xA2F0 = .ldI 0x2F0 ∧ decode false 0xB210 = .jpV0 0x210 ∧
  decode false 0xC30F = .rnd 3 0x0F ∧
  decode false 0xD125 = .drw 1 2 5 ∧ decode false 0xE39E = .skp 3 ∧
  decode false 0xE39F = .unknown 0xE39F ∧ decode false 0xF355 = .stRegs 3 ∧
  decode false 0xF365 = .ldRegs 3 ∧ decode false 0xFFFF = .unknown 0xFFFF

/-! ## The tick, the frame, the host -/

/-- R170, R171, R173, R57, R58: with a tick due and `PC` at most 4094, odd or even, the step is the
execution of the instruction that the big-endian word at `PC` decodes to, in the state with the tick's
inputs on the ports and `PC` advanced by 2. -/
def Obligations.StepRunsDecodedInstruction : Prop :=
  ∀ (s : State) (input : TickInput) (rest : List TickInput) (w : Word),
    s.TickDue input rest → s.pc.toNat ≤ 4094 →
    w.toNat = (s.readByte s.pc.toNat).toNat * 256 + (s.readByte (s.pc.toNat + 1)).toNat →
    step s = exec (decode s.cfg.strictXY0 w)
      { s with pc := s.pc + 2, keys := input.keys, rnd := input.rnd, frame := some rest }

/-- R171, R193, R190, R199: with a tick due and `PC` above 4094 the step latches `FETCH_OOB` with the
address `max(PC, 4096)` and no word, goes Idle, and leaves `PC` and all else as they were (decisions D24,
D25; log 1). -/
def Obligations.FetchPastTheEndFaults : Prop :=
  ∀ (s : State) (input : TickInput) (rest : List TickInput),
    s.TickDue input rest → 4094 < s.pc.toNat → s.fault = none →
    step s = .next { s with
      keys := input.keys, rnd := input.rnd, frame := none, run := .idle
      fault := some { kind := .fetchOob, addr := max s.pc.toNat 4096, word := none, pc0 := s.pc } }

/-- R68: after `LD [I],Vx` or `LD B,Vx` a fetch from any address, with nothing in between, decodes the
stored bytes where they were stored and the old bytes elsewhere: a fetch from inside the stored bytes, from
the last of them, and from the address before the first (decision D34). -/
def Obligations.StoreIsSeenByNextFetch : Prop :=
  ∀ (s t : State) (i : Instr) (x : Reg) (bs : List Byte),
    (i = .stRegs x ∧ bs = s.regsUpTo x) ∨ (i = .ldB x ∧ bs = bcdDigits (s.getV x)) →
    exec i s = .next t → t.fault = none →
    ∀ (a : Nat) (input : TickInput) (rest : List TickInput), a ≤ 4094 →
      ({ t with pc := BitVec.ofNat 16 a } : State).TickDue input rest →
      step { t with pc := BitVec.ofNat 16 a } =
        exec (decode s.cfg.strictXY0 (byteOnceStored s bs a ++ byteOnceStored s bs (a + 1)))
          { t with
            pc := BitVec.ofNat 16 a + 2
            keys := input.keys, rnd := input.rnd, frame := some rest }

/-- R179: at the end of a frame each timer counts down by 1 unless it is 0, and of the rest of the state
only the tone signal, the dirty mark, the end of the frame and what is told to the host change. -/
def Obligations.FrameEndCountsTimersDown : Prop :=
  ∀ s : State, s.run = .running → s.frame = some [] →
    ∃ t, step s = .next t ∧
      t.dt.toNat = s.dt.toNat - 1 ∧ t.st.toNat = s.st.toNat - 1 ∧
      KeepsExcept (fun p => p = .dt ∨ p = .st ∨ p = .toneActive ∨ p = .fbDirty ∨ p = .frame ∨ p = .out)
        s t

/-- R180, R181: at the end of a frame the tone signal is recomputed from the new sound timer, and the
draw-needed pulse is the dirty mark, which is then cleared (order: decision D26; that the pulse is kept as
an event in `out` is log 7). -/
def Obligations.FrameEndRaisesSignals : Prop :=
  ∀ s : State, s.run = .running → s.frame = some [] →
    ∃ t, step s = .next t ∧
      (t.toneActive = true ↔ t.st.toNat ≠ 0) ∧ (t.toneActive = true ↔ 2 ≤ s.st.toNat) ∧
      t.fbDirty = false ∧ t.out = .drawNeeded s.fbDirty :: s.out ∧ t.frame = none

/-- R175, R178, R182: a frame under way comes to its end after exactly its ticks and the frame end, or a
tick of it faults and the machine is Idle; nothing else happens to it (decisions D26, D27; steps as in log 2).
That a reset or a stop waiting in the host's queue does not cut the frame short is the model's choice (log 3,
DESIGN CHOICE, after R70, which gives the host no move in the middle of a frame). -/
def Obligations.EveryFrameEndsOrFaults : Prop :=
  ∀ (s : State) (l : List TickInput), s.Inv → s.frame = some l →
    ∃ (k : Nat) (t : State), Host.Core.run Sys2Proof.core k s = .next t ∧ t.frame = none ∧
      ((k = l.length + 1 ∧ t.fault = none ∧ t.run = .running) ∨
       (k ≤ l.length ∧ t.fault ≠ none ∧ t.run = .idle))

/-- R199, R182, R224: with a fault latched no step but a reset clears it or leaves Idle, no tick runs and no
timer counts; only a load still writes memory (decisions D27, D28). -/
def Obligations.FaultIsStickyUntilReset : Prop :=
  ∀ (s : State) (r : FaultRecord), s.Inv → s.fault = some r →
    (∀ rest, s.inbox ≠ .reset :: rest) →
    ∃ t, step s = .next t ∧ t.fault = some r ∧ t.run = .idle ∧
      KeepsExcept (fun p => p = .inbox ∨ p = .out ∨
        ((∃ bytes rest, s.inbox = .load bytes :: rest) ∧ ∃ a, p = .mem a)) s t

/-- R223, R201, R226: a load while Idle of at most 3584 bytes puts byte `k` at 512 + `k` and nothing else
into memory; a longer one is answered `PROGRAM_TOO_LARGE` and one while Running is refused, and neither
changes any state (decision D32; the answers as events in `out` are log 7). -/
def Obligations.LoadWritesTheProgramWindow : Prop :=
  ∀ (s : State) (bytes : List Byte) (rest : List HostEvent), s.TakesHostEvent (.load bytes) rest →
    (s.run = .idle → bytes.length ≤ 3584 →
      ∃ t, step s = .next t ∧
        (∀ (k : Nat) (h : k < bytes.length), t.readByte (512 + k) = bytes[k]) ∧
        t.out = .loadAccepted :: s.out ∧ t.inbox = rest ∧
        KeepsExcept (fun p => p = .inbox ∨ p = .out ∨
          ∃ a, p = .mem a ∧ 512 ≤ a ∧ a < 512 + bytes.length) s t) ∧
    (s.run = .idle → 3584 < bytes.length →
      step s = .next { s with inbox := rest, out := .programTooLarge :: s.out }) ∧
    (s.run = .running → step s = .next { s with inbox := rest, out := .refused :: s.out })

/-- R224, R225, R226: start takes Idle to Running when no fault is latched and is otherwise refused; stop
goes to Idle; neither changes anything else (decision D28; the answer to a refused start is log 7). -/
def Obligations.StartAndStopMoveTheScheduler : Prop :=
  ∀ (s : State) (rest : List HostEvent),
    (s.TakesHostEvent .start rest → s.run = .idle → s.fault = none →
      step s = .next { s with inbox := rest, run := .running }) ∧
    (s.TakesHostEvent .start rest → (s.run = .running ∨ s.fault ≠ none) →
      step s = .next { s with inbox := rest, out := .refused :: s.out }) ∧
    (s.TakesHostEvent .stop rest → step s = .next { s with inbox := rest, run := .idle })

/-- R178, R182: a frame event while Running, with its `TICKS_PER_FRAME` inputs, begins a frame, and while
Idle does nothing. The third clause is the model's choice (log 6): an event with another number of inputs
is no frame event and is refused. -/
def Obligations.FrameEventBeginsAFrame : Prop :=
  ∀ (s : State) (inputs : List TickInput) (rest : List HostEvent),
    s.TakesHostEvent (.frame inputs) rest →
    (s.run = .running → inputs.length = s.cfg.ticksPerFrame →
      step s = .next { s with inbox := rest, frame := some inputs }) ∧
    (s.run = .idle → step s = .next { s with inbox := rest }) ∧
    (s.run = .running → inputs.length ≠ s.cfg.ticksPerFrame →
      step s = .refused (.malformedFrame inputs.length))

/-- R220, R42, R56: a reset event, from any state, gives every piece of state its reset value, and keeps the
parameters (decisions D6, D8, D9, D10, D11; the glyph bytes are log 11). -/
def Obligations.ResetEventRestoresEverything : Prop :=
  ∀ (s : State) (rest : List HostEvent), s.TakesHostEvent .reset rest →
    ∃ t, step s = .next t ∧
      (∀ r, t.getV r = 0) ∧ t.i = 0 ∧ t.pc = 0x200 ∧ t.sp = 0 ∧ t.dt = 0 ∧ t.st = 0 ∧
      (∀ k : Fin 16, t.stack[k.val] = 0) ∧
      (∀ d < 16, t.bytesAt (s.cfg.fontBase.val + 5 * d) 5 = fontRows.getD d []) ∧
      (∀ a, a < s.cfg.fontBase.val ∨ s.cfg.fontBase.val + 80 ≤ a → t.readByte a = 0) ∧
      (∀ p, t.pixel p = false) ∧ t.fbDirty = false ∧ t.toneActive = false ∧ t.fault = none ∧
      t.run = .idle ∧ t.frame = none ∧ t.cfg = s.cfg ∧ t.inbox = rest

/-- R42, R5, R56: the state after reset with the default parameters, all 80 glyph bytes written out (glyph
bytes: decision D8, log 11). -/
def Obligations.ResetStateHasTheResetValues : Prop :=
  (∀ r, State.reset.getV r = 0) ∧ State.reset.i = 0 ∧ State.reset.pc = 0x200 ∧ State.reset.sp = 0 ∧
  (∀ k : Fin 16, State.reset.stack[k.val] = 0) ∧ State.reset.dt = 0 ∧ State.reset.st = 0 ∧
  (∀ p, State.reset.pixel p = false) ∧ State.reset.fbDirty = false ∧
  State.reset.toneActive = false ∧ State.reset.run = .idle ∧ State.reset.fault = none ∧
  State.reset.mem = [] ∧
  State.reset.bytesAt 0x050 80 =
    [ 0xF0, 0x90, 0x90, 0x90, 0xF0,   0x20, 0x60, 0x20, 0x20, 0x70,   0xF0, 0x10, 0xF0, 0x80, 0xF0,
      0xF0, 0x10, 0xF0, 0x10, 0xF0,   0x90, 0x90, 0xF0, 0x10, 0x10,   0xF0, 0x80, 0xF0, 0x10, 0xF0,
      0xF0, 0x80, 0xF0, 0x90, 0xF0,   0xF0, 0x10, 0x20, 0x40, 0x40,   0xF0, 0x90, 0xF0, 0x90, 0xF0,
      0xF0, 0x90, 0xF0, 0x10, 0xF0,   0xF0, 0x90, 0xF0, 0x90, 0x90,   0xE0, 0x90, 0xE0, 0x90, 0xE0,
      0xF0, 0x80, 0x80, 0x80, 0xF0,   0xE0, 0x90, 0x90, 0x90, 0xE0,   0xF0, 0x80, 0xF0, 0x80, 0xF0,
      0xF0, 0x80, 0xF0, 0x80, 0x80 ] ∧
  (∀ a, 0x0A0 ≤ a → State.reset.readByte a = 0) ∧ (∀ a < 0x050, State.reset.readByte a = 0) ∧
  State.reset.cfg.ticksPerFrame = 10 ∧ State.reset.cfg.fontBase.val = 0x050 ∧
  State.reset.cfg.keyscanLast.val = 14 ∧ State.reset.cfg.subnCanonical = false ∧
  State.reset.cfg.strictXY0 = false

/-! ## The invariant -/

/-- The invariant (Safety.lean) holds after reset. -/
def Obligations.ResetMeetsInvariant : Prop := State.reset.Inv

/-- Every step from a state that meets the invariant, reached by a run or not, answers a state that meets it:
canonical memory, `SP` within 0 to 15 (R24), `PC` at most 0x10FE (R23), return addresses 2 to 4096 (R101),
`Stack[0]` never written (R25), a latched fault Idle (R199), a frame only while Running (R178). -/
def Obligations.StepKeepsInvariant : Prop :=
  ∀ s t : State, s.Inv → step s = .next t → t.Inv

/-- R175, R200: from a state that meets the invariant a step never stops: it answers a next state, unless
the host's next event is a frame event with the wrong number of inputs (log 6). -/
def Obligations.InvariantRulesOutStops : Prop :=
  ∀ s : State, s.Inv →
    (∀ inputs rest, s.inbox = .frame inputs :: rest → inputs.length = s.cfg.ticksPerFrame) →
    ∃ t, step s = .next t

/-- R28, R50: memories in canonical form that read alike at the 4096 addresses are the same data. -/
def Obligations.CanonicalMemoryIsUnique : Prop :=
  ∀ (f : Nat) (m₁ m₂ : Memory), m₁.wf f = true → m₂.wf f = true →
    (∀ a < 4096, m₁.read f a = m₂.read f a) → m₁ = m₂

/-! ## Rules about every instruction -/

/-- R21: `VF` changes only by the six instructions of the table and by one whose destination it is
(decisions D16, D19). -/
def Obligations.OnlyListedInstructionsWriteVF : Prop :=
  ∀ (i : Instr) (s t : State), exec i s = .next t → t.getV 15 ≠ s.getV 15 → writesVF i = true

/-- R35, R62: which instructions may change which state. No instruction touches the tone signal, the ports,
the host's queue or the parameters, and the scheduler's fields change only with a fault. -/
def Obligations.AccessMatrix : Prop :=
  ∀ (i : Instr) (s t : State), exec i s = .next t →
    ((∃ a, t.readByte a ≠ s.readByte a) → ∃ x, i = .ldB x ∨ i = .stRegs x) ∧
    ((∃ p, t.pixel p ≠ s.pixel p) → i = .cls ∨ ∃ x y n, i = .drw x y n) ∧
    (t.fbDirty ≠ s.fbDirty → ∃ x y n, i = .drw x y n) ∧
    (t.i ≠ s.i → ∃ x addr, i = .ldI addr ∨ i = .addI x ∨ i = .ldF x) ∧
    (t.dt ≠ s.dt → ∃ x, i = .ldDTVx x) ∧ (t.st ≠ s.st → ∃ x, i = .ldSTVx x) ∧
    (t.sp ≠ s.sp → i = .ret ∨ ∃ addr, i = .call addr) ∧
    (t.stack ≠ s.stack → ∃ addr, i = .call addr) ∧
    (t.run ≠ s.run ∨ t.frame ≠ s.frame ∨ t.fault ≠ s.fault → t.fault ≠ none ∧ t.run = .idle) ∧
    t.toneActive = s.toneActive ∧ t.keys = s.keys ∧ t.rnd = s.rnd ∧ t.inbox = s.inbox ∧ t.cfg = s.cfg

/-- R190, R192, R199: the complete table of faults. An instruction faults exactly under the condition its
row gives, with the address its row gives, and then only the record, the scheduler and the frame change; in
every other state with a legal `SP` it completes (record layout: decision D24, log 1). -/
def Obligations.FaultTableIsComplete : Prop :=
  ∀ (i : Instr) (s : State), s.fault = none → s.sp.toNat ≤ 15 →
    (∀ kind addr, faultOf i s = some (kind, addr) →
      exec i s = .next { s with
        fault := some { kind := kind, addr := addr, word := some (encode i), pc0 := s.pc - 2 }
        run := .idle, frame := none }) ∧
    (faultOf i s = none →
      ∃ t, exec i s = .next t ∧ t.fault = none ∧ t.run = s.run ∧ t.frame = s.frame)

/-- R190, R191: a fault taken by a tick after its fetch names the word fetched and the address it was
fetched from, and `PC` has advanced past it (decision D24). -/
def Obligations.FaultRecordNamesTheInstruction : Prop :=
  ∀ (s t : State) (input : TickInput) (rest : List TickInput) (r : FaultRecord),
    s.TickDue input rest → s.pc.toNat ≤ 4094 → s.fault = none → step s = .next t → t.fault = some r →
    r.word = some (s.wordAt s.pc.toNat) ∧ r.pc0 = s.pc ∧ t.pc = s.pc + 2

/-- R39: only `RND` reads the tick's random byte; every other instruction does the same with any other one
on the port. -/
def Obligations.OnlyRndReadsTheRandomByte : Prop :=
  ∀ (i : Instr) (s : State) (b : Byte), (∀ x kk, i ≠ .rnd x kk) →
    exec i { s with rnd := b } = Result.withRnd b (exec i s)

/-- R38: only `SKP`, `SKNP` and `LD Vx,K` read the keys; every other instruction does the same with any
other sample on the port. -/
def Obligations.OnlyKeyInstructionsReadTheKeys : Prop :=
  ∀ (i : Instr) (s : State) (k : BitVec 16),
    (∀ x, i ≠ .skp x) → (∀ x, i ≠ .sknp x) → (∀ x, i ≠ .ldVxK x) →
    exec i { s with keys := k } = Result.withKeys k (exec i s)

/-- R23: `PC` after each instruction that does not fault, as an exact number: it does not wrap (after a
fetch `PC` is at most 4096). -/
def Obligations.ProgramCounterTable : Prop :=
  ∀ (i : Instr) (s t : State), s.pc.toNat ≤ 4096 → s.fault = none → exec i s = .next t →
    t.fault = none → t.pc.toNat = pcAfter i s

/-! ## Control flow -/

/-- R100: `SYS addr` changes nothing. -/
def Obligations.SysIsANoOp : Prop :=
  ∀ (addr : Addr12) (s : State),
    ∃ t, exec (.sys addr) s = .next t ∧ KeepsExcept (fun _ => False) s t

/-- R174: an `Unknown` word changes nothing. That the optional log of R41 is emitted is the model's choice
(log 7). -/
def Obligations.UnknownIsANoOp : Prop :=
  ∀ (w : Word) (s : State),
    ∃ t, exec (.unknown w) s = .next t ∧ t.out = .unknownLog w (s.pc - 2) :: s.out ∧
      KeepsExcept (fun p => p = .out) s t

/-- R102, R108: `JP addr` sets `PC` to `addr`, `JP V0,addr` to the exact sum of `addr` and `V[0]`. -/
def Obligations.JumpsSetTheProgramCounter : Prop :=
  ∀ (addr : Addr12) (s : State),
    (∃ t, exec (.jp addr) s = .next t ∧ t.pc.toNat = addr.toNat ∧
      KeepsExcept (fun p => p = .pc) s t) ∧
    (∃ t, exec (.jpV0 addr) s = .next t ∧ t.pc.toNat = addr.toNat + (s.getV 0).toNat ∧
      KeepsExcept (fun p => p = .pc) s t)

/-- R103: `CALL addr` with `SP` below 15 pushes `PC` in slot `SP + 1` and jumps; with `SP` 15 or more it
faults with nothing else changed (decisions D12, D20, D24, D27; the record as a next state is log 1). -/
def Obligations.CallPushesTheReturnAddress : Prop :=
  ∀ (addr : Addr12) (s : State),
    (∀ h : s.sp.toNat < 15, ∃ t, exec (.call addr) s = .next t ∧
      t.sp.toNat = s.sp.toNat + 1 ∧ t.stack[s.sp.toNat + 1] = s.pc ∧ t.pc.toNat = addr.toNat ∧
      KeepsExcept (fun p => p = .pc ∨ p = .sp ∨ p = .stack ⟨s.sp.toNat + 1, Nat.succ_lt_succ h⟩) s t) ∧
    (15 ≤ s.sp.toNat → s.fault = none →
      ∃ t, exec (.call addr) s = .next t ∧ Halted .stackOverflow (s.sp.toNat + 1) s t)

/-- R101: `RET` with `SP` 1 to 15 pops slot `SP` into `PC`; with `SP` 0 it faults with nothing else
changed (decisions D12, D20, D24, D27; the record as a next state is log 1). -/
def Obligations.RetPopsTheReturnAddress : Prop :=
  ∀ s : State,
    (∀ h : s.sp.toNat ≤ 15, 1 ≤ s.sp.toNat → ∃ t, exec .ret s = .next t ∧
      t.pc = s.stack[s.sp.toNat] ∧ t.sp.toNat = s.sp.toNat - 1 ∧
      KeepsExcept (fun p => p = .pc ∨ p = .sp) s t) ∧
    (s.sp.toNat = 0 → s.fault = none →
      ∃ t, exec .ret s = .next t ∧ Halted .stackUnderflow 0 s t)

/-- R103: a `RET` after a `CALL`, with the stack as the `CALL` left it, restores `PC` to the instruction
after the `CALL` and `SP` to its value before. -/
def Obligations.CallThenRetRoundTrip : Prop :=
  ∀ (addr : Addr12) (s t u : State), s.sp.toNat < 15 → exec (.call addr) s = .next t →
    u.sp = t.sp → u.stack = t.stack →
    ∃ w, exec .ret u = .next w ∧ w.pc = s.pc ∧ w.sp = s.sp

/-- R104, R105: the skips on a register and an immediate. -/
def Obligations.ImmediateSkips : Prop :=
  ∀ (x : Reg) (kk : Byte) (s : State),
    (∃ t, exec (.seImm x kk) s = .next t ∧
      (s.getV x = kk → t.pc = s.pc + 2) ∧ (s.getV x ≠ kk → t.pc = s.pc) ∧
      KeepsExcept (fun p => p = .pc) s t) ∧
    (∃ t, exec (.sneImm x kk) s = .next t ∧
      (s.getV x ≠ kk → t.pc = s.pc + 2) ∧ (s.getV x = kk → t.pc = s.pc) ∧
      KeepsExcept (fun p => p = .pc) s t)

/-- R106, R107: the skips on two registers, whatever the ignored nibble. -/
def Obligations.RegisterSkips : Prop :=
  ∀ (x y : Reg) (n : Nibble) (s : State),
    (∃ t, exec (.seReg x y n) s = .next t ∧
      (s.getV x = s.getV y → t.pc = s.pc + 2) ∧ (s.getV x ≠ s.getV y → t.pc = s.pc) ∧
      KeepsExcept (fun p => p = .pc) s t) ∧
    (∃ t, exec (.sneReg x y n) s = .next t ∧
      (s.getV x ≠ s.getV y → t.pc = s.pc + 2) ∧ (s.getV x = s.getV y → t.pc = s.pc) ∧
      KeepsExcept (fun p => p = .pc) s t)

/-! ## Register loads and the ALU -/

/-- R120, R121, R122: the two loads and the immediate add write `V[x]` and nothing else; the add wraps and
writes no flag. -/
def Obligations.LoadsAndImmediateAdd : Prop :=
  ∀ (x y : Reg) (kk : Byte) (s : State),
    (∃ t, exec (.ldImm x kk) s = .next t ∧ t.getV x = kk ∧ KeepsExcept (fun p => p = .v x) s t) ∧
    (∃ t, exec (.addImm x kk) s = .next t ∧
      (t.getV x).toNat = ((s.getV x).toNat + kk.toNat) % 256 ∧
      KeepsExcept (fun p => p = .v x) s t) ∧
    (∃ t, exec (.ldReg x y) s = .next t ∧ t.getV x = s.getV y ∧
      KeepsExcept (fun p => p = .v x) s t)

/-- R123, R124, R125: each bit of `V[x]` becomes the OR, AND or XOR of the bits of `V[x]` and `V[y]`, and
nothing else is written, `VF` included (decision D16). -/
def Obligations.BitwiseOperations : Prop :=
  ∀ (x y : Reg) (s : State),
    (∃ t, exec (.orReg x y) s = .next t ∧
      (∀ k < 8, (t.getV x).getLsbD k = ((s.getV x).getLsbD k || (s.getV y).getLsbD k)) ∧
      KeepsExcept (fun p => p = .v x) s t) ∧
    (∃ t, exec (.andReg x y) s = .next t ∧
      (∀ k < 8, (t.getV x).getLsbD k = ((s.getV x).getLsbD k && (s.getV y).getLsbD k)) ∧
      KeepsExcept (fun p => p = .v x) s t) ∧
    (∃ t, exec (.xorReg x y) s = .next t ∧
      (∀ k < 8, (t.getV x).getLsbD k = ((s.getV x).getLsbD k ^^ (s.getV y).getLsbD k)) ∧
      KeepsExcept (fun p => p = .v x) s t)

/-- R126: `V[x]` receives the low 8 bits of the exact sum; `VF` receives 1 if the sum exceeds 255, else 0.
For `x` = 15 the two writes name one register and the later one, the sum, is left. -/
def Obligations.AddRegistersWithCarry : Prop :=
  ∀ (x y : Reg) (s : State),
    ∃ t, exec (.addReg x y) s = .next t ∧
      (t.getV x).toNat = ((s.getV x).toNat + (s.getV y).toNat) % 256 ∧
      (x ≠ 15 → (t.getV 15).toNat = if (s.getV x).toNat + (s.getV y).toNat > 255 then 1 else 0) ∧
      KeepsExcept (fun p => p = .v x ∨ p = .v 15) s t

/-- R127: `V[x]` receives the difference modulo 256; `VF` receives 1 if `V[x]` was at least `V[y]`, else 0.
For `x` = 15 the difference is left. -/
def Obligations.SubtractRegisters : Prop :=
  ∀ (x y : Reg) (s : State),
    ∃ t, exec (.subReg x y) s = .next t ∧
      ((t.getV x).toNat : Int) = ((s.getV x).toNat - (s.getV y).toNat : Int) % 256 ∧
      (x ≠ 15 → (t.getV 15).toNat = if (s.getV x).toNat ≥ (s.getV y).toNat then 1 else 0) ∧
      KeepsExcept (fun p => p = .v x ∨ p = .v 15) s t

/-- R128, R131, R133: `SHR` halves `V[x]` and `SHL` doubles it modulo 256, each giving `VF` the bit put out;
`y` plays no part; for `x` = 15 the result is left (decisions D15, D17). -/
def Obligations.ShiftsByOneBit : Prop :=
  ∀ (x y : Reg) (s : State),
    (∃ t, exec (.shr x y) s = .next t ∧
      (t.getV x).toNat = (s.getV x).toNat / 2 ∧
      (x ≠ 15 → (t.getV 15).toNat = (s.getV x).toNat % 2) ∧
      KeepsExcept (fun p => p = .v x ∨ p = .v 15) s t) ∧
    (∃ t, exec (.shl x y) s = .next t ∧
      (t.getV x).toNat = (s.getV x).toNat * 2 % 256 ∧
      (x ≠ 15 → (t.getV 15).toNat = (s.getV x).toNat / 128) ∧
      KeepsExcept (fun p => p = .v x ∨ p = .v 15) s t)

/-- R130, R133: `SUBN` gives `VF` 1 if `V[y]` was at least `V[x]`, else 0, and subtracts in the direction
that `SUBN_CANONICAL` says; for `x` = 15 the result is left (decisions D13, D15). -/
def Obligations.SubtractReversedFlag : Prop :=
  ∀ (x y : Reg) (s : State),
    ∃ t, exec (.subn x y) s = .next t ∧
      (s.cfg.subnCanonical = false →
        ((t.getV x).toNat : Int) = ((s.getV x).toNat - (s.getV y).toNat : Int) % 256) ∧
      (s.cfg.subnCanonical = true →
        ((t.getV x).toNat : Int) = ((s.getV y).toNat - (s.getV x).toNat : Int) % 256) ∧
      (x ≠ 15 → (t.getV 15).toNat = if (s.getV y).toNat ≥ (s.getV x).toNat then 1 else 0) ∧
      KeepsExcept (fun p => p = .v x ∨ p = .v 15) s t

/-- R132: `V[x]` receives the tick's random byte AND `kk`, so no bit outside `kk`; nothing else is
written. -/
def Obligations.RandomByteIsMasked : Prop :=
  ∀ (x : Reg) (kk : Byte) (s : State),
    ∃ t, exec (.rnd x kk) s = .next t ∧
      (∀ k < 8, (t.getV x).getLsbD k = (s.rnd.getLsbD k && kk.getLsbD k)) ∧
      t.getV x &&& ~~~kk = 0 ∧ KeepsExcept (fun p => p = .v x) s t

/-! ## Index register and memory -/

/-- R140: `LD I,addr`. -/
def Obligations.LoadIndex : Prop :=
  ∀ (addr : Addr12) (s : State),
    ∃ t, exec (.ldI addr) s = .next t ∧ t.i.toNat = addr.toNat ∧ KeepsExcept (fun p => p = .i) s t

/-- R141, R142: `ADD I,Vx` adds modulo 65536 and writes no flag; `LD F,Vx` sets `I` to
`FONT_BASE + 5 * V[x]` exactly, for any byte (decisions D19, D36). -/
def Obligations.IndexArithmetic : Prop :=
  ∀ (x : Reg) (s : State),
    (∃ t, exec (.addI x) s = .next t ∧ t.i.toNat = (s.i.toNat + (s.getV x).toNat) % 65536 ∧
      KeepsExcept (fun p => p = .i) s t) ∧
    (∃ t, exec (.ldF x) s = .next t ∧ t.i.toNat = s.cfg.fontBase.val + 5 * (s.getV x).toNat ∧
      KeepsExcept (fun p => p = .i) s t)

/-- R143: `LD B,Vx` stores the three decimal digits of `V[x]` at `I`, `I+1`, `I+2`; past 4095 it faults with
nothing written (decisions D20, D24, D27; the record as a next state is log 1). -/
def Obligations.BcdStoresThreeDigits : Prop :=
  ∀ (x : Reg) (s : State),
    (s.i.toNat + 2 ≤ 4095 →
      ∃ t, exec (.ldB x) s = .next t ∧
        (t.readByte s.i.toNat).toNat = (s.getV x).toNat / 100 ∧
        (t.readByte (s.i.toNat + 1)).toNat = (s.getV x).toNat / 10 % 10 ∧
        (t.readByte (s.i.toNat + 2)).toNat = (s.getV x).toNat % 10 ∧
        KeepsExcept (fun p => ∃ a, p = .mem a ∧ s.i.toNat ≤ a ∧ a ≤ s.i.toNat + 2) s t) ∧
    (s.i.toNat + 2 > 4095 → s.fault = none →
      ∃ t, exec (.ldB x) s = .next t ∧ Halted .memWriteOob (max s.i.toNat 4096) s t)

/-- R145: `LD [I],Vx` stores `V[0]` to `V[x]` at `I` to `I + x` and leaves `I` alone; past 4095 it faults with
nothing written (decisions D18, D20, D24, D27; the record as a next state is log 1). -/
def Obligations.BlockStore : Prop :=
  ∀ (x : Reg) (s : State),
    (s.i.toNat + x.val ≤ 4095 →
      ∃ t, exec (.stRegs x) s = .next t ∧
        (∀ r : Reg, r ≤ x → t.readByte (s.i.toNat + r.val) = s.getV r) ∧
        KeepsExcept (fun p => ∃ a, p = .mem a ∧ s.i.toNat ≤ a ∧ a ≤ s.i.toNat + x.val) s t) ∧
    (s.i.toNat + x.val > 4095 → s.fault = none →
      ∃ t, exec (.stRegs x) s = .next t ∧ Halted .memWriteOob (max s.i.toNat 4096) s t)

/-- R146: `LD Vx,[I]` loads `V[0]` to `V[x]` from `I` to `I + x` and leaves `I` alone; past 4095 it
faults with no register changed (decisions D18, D20, D24, D27; the record as a next state is log 1). -/
def Obligations.BlockLoad : Prop :=
  ∀ (x : Reg) (s : State),
    (s.i.toNat + x.val ≤ 4095 →
      ∃ t, exec (.ldRegs x) s = .next t ∧
        (∀ r : Reg, r ≤ x → t.getV r = s.readByte (s.i.toNat + r.val)) ∧
        KeepsExcept (fun p => ∃ r, p = .v r ∧ r ≤ x) s t) ∧
    (s.i.toNat + x.val > 4095 → s.fault = none →
      ∃ t, exec (.ldRegs x) s = .next t ∧ Halted .memReadOob (max s.i.toNat 4096) s t)

/-! ## Display -/

/-- R151: `CLS` makes every pixel 0 and changes nothing else, neither `VF` nor the dirty mark
(decision D35). -/
def Obligations.ClearScreen : Prop :=
  ∀ s : State, ∃ t, exec .cls s = .next t ∧ (∀ p, t.pixel p = false) ∧
    KeepsExcept (fun p => ∃ q, p = .fb q) s t

/-- R152, R150, R64: `DRW Vx,Vy,n` inverts exactly the pixels under the set bits of its `n` sprite rows,
each coordinate wrapped on its own axis, sets `VF` to 1 exactly when one of them was lit, and marks the
buffer; `n` = 0 draws nothing and reads nothing (bit 7 leftmost: decision D21; `n` = 0: D22; log 12). -/
def Obligations.DrawInvertsSpritePixels : Prop :=
  ∀ (x y : Reg) (n : Nibble) (s : State), n.val = 0 ∨ s.i.toNat + n.val - 1 ≤ 4095 →
    ∃ t, exec (.drw x y n) s = .next t ∧
      (∀ p, SpriteOn s x y n p → t.pixel p = !s.pixel p) ∧
      ((∃ p, SpriteOn s x y n p ∧ s.pixel p = true) → t.getV 15 = 1) ∧
      ((∀ p, SpriteOn s x y n p → s.pixel p = false) → t.getV 15 = 0) ∧
      t.fbDirty = true ∧
      KeepsExcept (fun p => p = .v 15 ∨ p = .fbDirty ∨ ∃ q, p = .fb q ∧ SpriteOn s x y n q) s t

/-- R152, R194: `DRW` whose last sprite byte lies past 4095 faults with no pixel, no `VF` and no dirty mark
changed (decisions D20, D22, D24, D27; the record as a next state is log 1). -/
def Obligations.DrawPastMemoryFaults : Prop :=
  ∀ (x y : Reg) (n : Nibble) (s : State), 0 < n.val → s.i.toNat + n.val - 1 > 4095 → s.fault = none →
    ∃ t, exec (.drw x y n) s = .next t ∧ Halted .memReadOob (max s.i.toNat 4096) s t

/-- R153 (f): drawing the same sprite a second time at the same place, with the sprite's bytes as they were,
restores the frame buffer, and reports a collision exactly when some pixel under a set bit was unlit before
the first drawing. -/
def Obligations.DrawingTwiceRestores : Prop :=
  ∀ (x y : Reg) (n : Nibble) (s t u : State), n.val = 0 ∨ s.i.toNat + n.val - 1 ≤ 4095 →
    exec (.drw x y n) s = .next t →
    u.fb = t.fb → u.i = s.i → u.getV x = s.getV x → u.getV y = s.getV y →
    (∀ r < n.val, u.readByte (s.i.toNat + r) = s.readByte (s.i.toNat + r)) →
    ∃ w, exec (.drw x y n) u = .next w ∧ w.fb = s.fb ∧
      (w.getV 15 = 1 ↔ ∃ p, SpriteOn s x y n p ∧ s.pixel p = false)

/-! ## Keys and timers -/

/-- R160, R161: the skips on a key, with the key number the value of `V[x]`; above 15 they fault
(decisions D20, D23, D24, D27; the record as a next state is log 1). -/
def Obligations.KeySkips : Prop :=
  ∀ (x : Reg) (s : State),
    ((s.getV x).toNat ≤ 15 →
      (∃ t, exec (.skp x) s = .next t ∧
        (s.keys.getLsbD (s.getV x).toNat = true → t.pc = s.pc + 2) ∧
        (s.keys.getLsbD (s.getV x).toNat = false → t.pc = s.pc) ∧
        KeepsExcept (fun p => p = .pc) s t) ∧
      (∃ t, exec (.sknp x) s = .next t ∧
        (s.keys.getLsbD (s.getV x).toNat = false → t.pc = s.pc + 2) ∧
        (s.keys.getLsbD (s.getV x).toNat = true → t.pc = s.pc) ∧
        KeepsExcept (fun p => p = .pc) s t)) ∧
    (15 < (s.getV x).toNat → s.fault = none →
      (∃ t, exec (.skp x) s = .next t ∧ Halted .keyIndexOob (s.getV x).toNat s t) ∧
      (∃ t, exec (.sknp x) s = .next t ∧ Halted .keyIndexOob (s.getV x).toNat s t))

/-- R162: `LD Vx,K` completes in its tick: `V[x]` receives the lowest-numbered key down among 0 to
`KEYSCAN_LAST`, and with none down nothing is written (decisions D14, D41). -/
def Obligations.KeyCaptureDoesNotWait : Prop :=
  ∀ (x : Reg) (s : State),
    ∃ t, exec (.ldVxK x) s = .next t ∧
      (∀ k, k ≤ s.cfg.keyscanLast.val → s.keys.getLsbD k = true →
        (∀ j < k, s.keys.getLsbD j = false) → (t.getV x).toNat = k) ∧
      ((∀ k, k ≤ s.cfg.keyscanLast.val → s.keys.getLsbD k = false) → t.getV x = s.getV x) ∧
      KeepsExcept (fun p => p = .v x) s t

/-- R163, R164, R165: the copies between a register and a timer write their destination and nothing else; the
tone signal in particular is not recomputed. -/
def Obligations.TimerCopies : Prop :=
  ∀ (x : Reg) (s : State),
    (∃ t, exec (.ldVxDT x) s = .next t ∧ t.getV x = s.dt ∧ KeepsExcept (fun p => p = .v x) s t) ∧
    (∃ t, exec (.ldDTVx x) s = .next t ∧ t.dt = s.getV x ∧ KeepsExcept (fun p => p = .dt) s t) ∧
    (∃ t, exec (.ldSTVx x) s = .next t ∧ t.st = s.getV x ∧ KeepsExcept (fun p => p = .st) s t)
end

