-- ==== Sys2Proof/Laws/Decode.lean ====
section
/-! SUPPORT. The fields of a word laid out by the encoder, and a word laid out again from its fields: the
facts from which the two directions of decode and encode, and the opcode table, follow. -/

namespace Sys2Proof

/-! ## The fields of a packed word -/

@[simp] theorem msn_packNNN (m : BitVec 4) (a : Addr12) : msn (packNNN m a) = m := by
  apply BitVec.eq_of_getLsbD_eq; intro i hi
  simp only [msn, packNNN, BitVec.getLsbD_extractLsb', BitVec.getLsbD_append, hi]
  simp

@[simp] theorem fieldAddr_packNNN (m : BitVec 4) (a : Addr12) : fieldAddr (packNNN m a) = a := by
  apply BitVec.eq_of_getLsbD_eq; intro i hi
  simp only [fieldAddr, packNNN, BitVec.getLsbD_extractLsb', BitVec.getLsbD_append, hi]
  simp [hi]

@[simp] theorem msn_packXKK (m : BitVec 4) (x : Reg) (kk : Byte) : msn (packXKK m x kk) = m := by
  apply BitVec.eq_of_getLsbD_eq; intro i hi
  have h1 : ¬ 12 + i < 8 := by omega
  have h2 : ¬ 12 + i - 8 < 4 := by omega
  have h3 : 12 + i - 8 - 4 = i := by omega
  simp only [msn, packXKK, BitVec.getLsbD_extractLsb', BitVec.getLsbD_append, hi, h1, h2, h3]
  simp

@[simp] theorem fieldX_packXKK (m : BitVec 4) (x : Reg) (kk : Byte) :
    fieldX (packXKK m x kk) = x := by
  have : (packXKK m x kk).extractLsb' 8 4 = nibbleBits x := by
    apply BitVec.eq_of_getLsbD_eq; intro i hi
    have h1 : ¬ 8 + i < 8 := by omega
    have h2 : 8 + i - 8 = i := by omega
    simp only [packXKK, BitVec.getLsbD_extractLsb', BitVec.getLsbD_append, hi, h1, h2]
    simp
  simp only [fieldX, this, nibbleBits]

@[simp] theorem fieldKK_packXKK (m : BitVec 4) (x : Reg) (kk : Byte) :
    fieldKK (packXKK m x kk) = kk := by
  apply BitVec.eq_of_getLsbD_eq; intro i hi
  simp only [fieldKK, packXKK, BitVec.getLsbD_extractLsb', BitVec.getLsbD_append, hi]
  simp [hi]

@[simp] theorem msn_packXYN (m : BitVec 4) (x y : Reg) (n : Nibble) : msn (packXYN m x y n) = m := by
  apply BitVec.eq_of_getLsbD_eq; intro i hi
  have h1 : ¬ 12 + i < 4 := by omega
  have h2 : ¬ 12 + i - 4 < 4 := by omega
  have h3 : ¬ 12 + i - 4 - 4 < 4 := by omega
  have h4 : 12 + i - 4 - 4 - 4 = i := by omega
  simp only [msn, packXYN, BitVec.getLsbD_extractLsb', BitVec.getLsbD_append, hi, h1, h2, h3, h4]
  simp

@[simp] theorem fieldX_packXYN (m : BitVec 4) (x y : Reg) (n : Nibble) :
    fieldX (packXYN m x y n) = x := by
  have : (packXYN m x y n).extractLsb' 8 4 = nibbleBits x := by
    apply BitVec.eq_of_getLsbD_eq; intro i hi
    have h1 : ¬ 8 + i < 4 := by omega
    have h2 : ¬ 8 + i - 4 < 4 := by omega
    have h3 : 8 + i - 4 - 4 = i := by omega
    simp only [packXYN, BitVec.getLsbD_extractLsb', BitVec.getLsbD_append, hi, h1, h2, h3]
    simp
  simp only [fieldX, this, nibbleBits]

@[simp] theorem fieldY_packXYN (m : BitVec 4) (x y : Reg) (n : Nibble) :
    fieldY (packXYN m x y n) = y := by
  have : (packXYN m x y n).extractLsb' 4 4 = nibbleBits y := by
    apply BitVec.eq_of_getLsbD_eq; intro i hi
    have h1 : ¬ 4 + i < 4 := by omega
    have h2 : 4 + i - 4 = i := by omega
    simp only [packXYN, BitVec.getLsbD_extractLsb', BitVec.getLsbD_append, hi, h1, h2]
    simp
  simp only [fieldY, this, nibbleBits]

@[simp] theorem fieldN_packXYN (m : BitVec 4) (x y : Reg) (n : Nibble) :
    fieldN (packXYN m x y n) = n := by
  have : (packXYN m x y n).extractLsb' 0 4 = nibbleBits n := by
    apply BitVec.eq_of_getLsbD_eq; intro i hi
    simp only [packXYN, BitVec.getLsbD_extractLsb', BitVec.getLsbD_append, hi]
    simp [hi]
  simp only [fieldN, this, nibbleBits]

/-! ## A word from its fields -/

theorem packNNN_fields (w : Word) : packNNN (msn w) (fieldAddr w) = w := by
  apply BitVec.eq_of_getLsbD_eq; intro i hi
  simp only [packNNN, msn, fieldAddr, BitVec.getLsbD_append, BitVec.getLsbD_extractLsb']
  by_cases h : i < 12
  · simp [h]
  · have h1 : i - 12 < 4 := by omega
    have h2 : 12 + (i - 12) = i := by omega
    simp [h, h1, h2]

theorem packXKK_fields (w : Word) : packXKK (msn w) (fieldX w) (fieldKK w) = w := by
  apply BitVec.eq_of_getLsbD_eq; intro i hi
  simp only [packXKK, msn, fieldX, fieldKK, nibbleBits, BitVec.ofFin_toFin, BitVec.getLsbD_append,
    BitVec.getLsbD_extractLsb']
  by_cases h : i < 8
  · simp [h]
  · by_cases h' : i - 8 < 4
    · have h2 : 8 + (i - 8) = i := by omega
      simp [h, h', h2]
    · have h1 : i - 8 - 4 < 4 := by omega
      have h2 : 12 + (i - 8 - 4) = i := by omega
      simp [h, h', h1, h2]

theorem packXYN_fields (w : Word) : packXYN (msn w) (fieldX w) (fieldY w) (fieldN w) = w := by
  apply BitVec.eq_of_getLsbD_eq; intro i hi
  simp only [packXYN, msn, fieldX, fieldY, fieldN, nibbleBits, BitVec.ofFin_toFin,
    BitVec.getLsbD_append, BitVec.getLsbD_extractLsb']
  by_cases h : i < 4
  · simp [h]
  · by_cases h' : i - 4 < 4
    · have h2 : 4 + (i - 4) = i := by omega
      simp [h, h', h2]
    · by_cases h'' : i - 4 - 4 < 4
      · have h2 : 8 + (i - 4 - 4) = i := by omega
        simp [h, h', h'', h2]
      · have h1 : i - 4 - 4 - 4 < 4 := by omega
        have h2 : 12 + (i - 4 - 4 - 4) = i := by omega
        simp [h, h', h'', h1, h2]

/-! ## Laid out words are equal when their fields are -/

theorem packNNN_inj {m m' : BitVec 4} {a a' : Addr12} :
    packNNN m a = packNNN m' a' ↔ m = m' ∧ a = a' :=
  ⟨fun h => ⟨by simpa using congrArg msn h, by simpa using congrArg fieldAddr h⟩,
    fun ⟨hm, ha⟩ => by rw [hm, ha]⟩

theorem packXKK_inj {m m' : BitVec 4} {x x' : Reg} {k k' : Byte} :
    packXKK m x k = packXKK m' x' k' ↔ m = m' ∧ x = x' ∧ k = k' :=
  ⟨fun h => ⟨by simpa using congrArg msn h, by simpa using congrArg fieldX h,
    by simpa using congrArg fieldKK h⟩, fun ⟨hm, hx, hk⟩ => by rw [hm, hx, hk]⟩

theorem packXYN_inj {m m' : BitVec 4} {x x' y y' : Reg} {n n' : Nibble} :
    packXYN m x y n = packXYN m' x' y' n' ↔ m = m' ∧ x = x' ∧ y = y' ∧ n = n' :=
  ⟨fun h => ⟨by simpa using congrArg msn h, by simpa using congrArg fieldX h,
    by simpa using congrArg fieldY h, by simpa using congrArg fieldN h⟩,
    fun ⟨hm, hx, hy, hn⟩ => by rw [hm, hx, hy, hn]⟩

/-! ## The fields as numbers -/

theorem msn_toNat (w : Word) : (msn w).toNat = w.toNat / 4096 := by
  have := w.isLt
  simp only [msn, BitVec.extractLsb'_toNat, Nat.shiftRight_eq_div_pow]
  omega

theorem fieldN_val (w : Word) : (fieldN w).val = w.toNat % 16 := by
  show (w.extractLsb' 0 4).toNat = _
  simp only [BitVec.extractLsb'_toNat, Nat.shiftRight_eq_div_pow]
  omega

theorem fieldKK_toNat (w : Word) : (fieldKK w).toNat = w.toNat % 256 := by
  simp only [fieldKK, BitVec.extractLsb'_toNat, Nat.shiftRight_eq_div_pow]
  omega

/-- The sixteen families. -/
theorem msn_cases (w : Word) :
    msn w = 0x0 ∨ msn w = 0x1 ∨ msn w = 0x2 ∨ msn w = 0x3 ∨ msn w = 0x4 ∨ msn w = 0x5 ∨
    msn w = 0x6 ∨ msn w = 0x7 ∨ msn w = 0x8 ∨ msn w = 0x9 ∨ msn w = 0xA ∨ msn w = 0xB ∨
    msn w = 0xC ∨ msn w = 0xD ∨ msn w = 0xE ∨ msn w = 0xF := by
  generalize msn w = m; revert m; decide

/-- The decision tree as a chain of comparisons of `msn`. -/
theorem decode_msn (strict : Bool) (w : Word) :
    decode strict w =
      if msn w = 0x0 then decodeFamily0 w
      else if msn w = 0x1 then .jp (fieldAddr w)
      else if msn w = 0x2 then .call (fieldAddr w)
      else if msn w = 0x3 then .seImm (fieldX w) (fieldKK w)
      else if msn w = 0x4 then .sneImm (fieldX w) (fieldKK w)
      else if msn w = 0x5 then decodeXY0 strict .seReg w
      else if msn w = 0x6 then .ldImm (fieldX w) (fieldKK w)
      else if msn w = 0x7 then .addImm (fieldX w) (fieldKK w)
      else if msn w = 0x8 then decodeFamily8 w
      else if msn w = 0x9 then decodeXY0 strict .sneReg w
      else if msn w = 0xA then .ldI (fieldAddr w)
      else if msn w = 0xB then .jpV0 (fieldAddr w)
      else if msn w = 0xC then .rnd (fieldX w) (fieldKK w)
      else if msn w = 0xD then .drw (fieldX w) (fieldY w) (fieldN w)
      else if msn w = 0xE then decodeFamilyE w
      else decodeFamilyF w := by
  unfold decode
  split <;> simp_all

/-- The defined patterns through the decoder's fields. -/
theorem isDefinedWord_fields (strict : Bool) (w : Word) :
    isDefinedWord strict w =
      (if msn w = 0x8 then definedLow8.contains (fieldN w).val
       else if msn w = 0xE then definedLowE.contains (fieldKK w).toNat
       else if msn w = 0xF then definedLowF.contains (fieldKK w).toNat
       else if msn w = 0x5 ∨ msn w = 0x9 then !strict || fieldN w == 0
       else true) := by
  have hn : (fieldN w == 0) = (w.toNat % 16 == 0) := by
    rw [Bool.eq_iff_iff, beq_iff_eq, beq_iff_eq, Fin.ext_iff, fieldN_val]; rfl
  unfold isDefinedWord
  simp only [← BitVec.toNat_inj, msn_toNat, fieldN_val, fieldKK_toNat, hn]
  rfl

/-- R57: the value of a big-endian word. -/
theorem wordOfBytes_toNat (hi lo : Byte) :
    (wordOfBytes hi lo).toNat = hi.toNat * 256 + lo.toNat := by
  have := lo.isLt
  simp only [wordOfBytes, BitVec.toNat_append, Nat.shiftLeft_eq]
  rw [Nat.mul_comm, ← Nat.two_pow_add_eq_or_of_lt (by simpa using lo.isLt)]

/-- R57: the two bytes of a word, as memory holds them, are that word again. -/
theorem decodeBytes_bytesOfWord (strict : Bool) (w : Word) (rest : List Byte) :
    decodeBytes strict (bytesOfWord w ++ rest) = .ok (decode strict w, rest) := by
  have : wordOfBytes (w.extractLsb' 8 8) (w.extractLsb' 0 8) = w := by
    apply BitVec.eq_of_getLsbD_eq; intro i hi
    simp only [wordOfBytes, BitVec.getLsbD_append, BitVec.getLsbD_extractLsb']
    by_cases h : i < 8
    · simp [h]
    · have h1 : i - 8 < 8 := by omega
      have h2 : 8 + (i - 8) = i := by omega
      simp [h, h1, h2]
  simp [bytesOfWord, decodeBytes, this]

end Sys2Proof
end

