-- ==== Sys2Proof/Laws/State.lean ====
section
/-! SUPPORT. The state's field lemmas: for every named update, what each field is after it; each is true by
`rfl`. Then the same for the updates built from them. -/

namespace Sys2Proof.Machine

open Sys2Proof

variable (s : State)

/-! ## `setV` -/

@[simp] theorem State.setV_v (r : Reg) (b : Byte) : (s.setV r b).v = s.v.set r.val b := rfl
@[simp] theorem State.setV_i (r : Reg) (b : Byte) : (s.setV r b).i = s.i := rfl
@[simp] theorem State.setV_pc (r : Reg) (b : Byte) : (s.setV r b).pc = s.pc := rfl
@[simp] theorem State.setV_sp (r : Reg) (b : Byte) : (s.setV r b).sp = s.sp := rfl
@[simp] theorem State.setV_stack (r : Reg) (b : Byte) : (s.setV r b).stack = s.stack := rfl
@[simp] theorem State.setV_dt (r : Reg) (b : Byte) : (s.setV r b).dt = s.dt := rfl
@[simp] theorem State.setV_st (r : Reg) (b : Byte) : (s.setV r b).st = s.st := rfl
@[simp] theorem State.setV_mem (r : Reg) (b : Byte) : (s.setV r b).mem = s.mem := rfl
@[simp] theorem State.setV_fb (r : Reg) (b : Byte) : (s.setV r b).fb = s.fb := rfl
@[simp] theorem State.setV_fbDirty (r : Reg) (b : Byte) : (s.setV r b).fbDirty = s.fbDirty := rfl
@[simp] theorem State.setV_run (r : Reg) (b : Byte) : (s.setV r b).run = s.run := rfl
@[simp] theorem State.setV_toneActive (r : Reg) (b : Byte) : (s.setV r b).toneActive = s.toneActive := rfl
@[simp] theorem State.setV_fault (r : Reg) (b : Byte) : (s.setV r b).fault = s.fault := rfl
@[simp] theorem State.setV_keys (r : Reg) (b : Byte) : (s.setV r b).keys = s.keys := rfl
@[simp] theorem State.setV_rnd (r : Reg) (b : Byte) : (s.setV r b).rnd = s.rnd := rfl
@[simp] theorem State.setV_frame (r : Reg) (b : Byte) : (s.setV r b).frame = s.frame := rfl
@[simp] theorem State.setV_inbox (r : Reg) (b : Byte) : (s.setV r b).inbox = s.inbox := rfl
@[simp] theorem State.setV_out (r : Reg) (b : Byte) : (s.setV r b).out = s.out := rfl
@[simp] theorem State.setV_cfg (r : Reg) (b : Byte) : (s.setV r b).cfg = s.cfg := rfl

/-! ## `setPC` -/

@[simp] theorem State.setPC_v (a : Word) : (s.setPC a).v = s.v := rfl
@[simp] theorem State.setPC_i (a : Word) : (s.setPC a).i = s.i := rfl
@[simp] theorem State.setPC_pc (a : Word) : (s.setPC a).pc = a := rfl
@[simp] theorem State.setPC_sp (a : Word) : (s.setPC a).sp = s.sp := rfl
@[simp] theorem State.setPC_stack (a : Word) : (s.setPC a).stack = s.stack := rfl
@[simp] theorem State.setPC_dt (a : Word) : (s.setPC a).dt = s.dt := rfl
@[simp] theorem State.setPC_st (a : Word) : (s.setPC a).st = s.st := rfl
@[simp] theorem State.setPC_mem (a : Word) : (s.setPC a).mem = s.mem := rfl
@[simp] theorem State.setPC_fb (a : Word) : (s.setPC a).fb = s.fb := rfl
@[simp] theorem State.setPC_fbDirty (a : Word) : (s.setPC a).fbDirty = s.fbDirty := rfl
@[simp] theorem State.setPC_run (a : Word) : (s.setPC a).run = s.run := rfl
@[simp] theorem State.setPC_toneActive (a : Word) : (s.setPC a).toneActive = s.toneActive := rfl
@[simp] theorem State.setPC_fault (a : Word) : (s.setPC a).fault = s.fault := rfl
@[simp] theorem State.setPC_keys (a : Word) : (s.setPC a).keys = s.keys := rfl
@[simp] theorem State.setPC_rnd (a : Word) : (s.setPC a).rnd = s.rnd := rfl
@[simp] theorem State.setPC_frame (a : Word) : (s.setPC a).frame = s.frame := rfl
@[simp] theorem State.setPC_inbox (a : Word) : (s.setPC a).inbox = s.inbox := rfl
@[simp] theorem State.setPC_out (a : Word) : (s.setPC a).out = s.out := rfl
@[simp] theorem State.setPC_cfg (a : Word) : (s.setPC a).cfg = s.cfg := rfl

/-! ## `setI` -/

@[simp] theorem State.setI_v (a : Word) : (s.setI a).v = s.v := rfl
@[simp] theorem State.setI_i (a : Word) : (s.setI a).i = a := rfl
@[simp] theorem State.setI_pc (a : Word) : (s.setI a).pc = s.pc := rfl
@[simp] theorem State.setI_sp (a : Word) : (s.setI a).sp = s.sp := rfl
@[simp] theorem State.setI_stack (a : Word) : (s.setI a).stack = s.stack := rfl
@[simp] theorem State.setI_dt (a : Word) : (s.setI a).dt = s.dt := rfl
@[simp] theorem State.setI_st (a : Word) : (s.setI a).st = s.st := rfl
@[simp] theorem State.setI_mem (a : Word) : (s.setI a).mem = s.mem := rfl
@[simp] theorem State.setI_fb (a : Word) : (s.setI a).fb = s.fb := rfl
@[simp] theorem State.setI_fbDirty (a : Word) : (s.setI a).fbDirty = s.fbDirty := rfl
@[simp] theorem State.setI_run (a : Word) : (s.setI a).run = s.run := rfl
@[simp] theorem State.setI_toneActive (a : Word) : (s.setI a).toneActive = s.toneActive := rfl
@[simp] theorem State.setI_fault (a : Word) : (s.setI a).fault = s.fault := rfl
@[simp] theorem State.setI_keys (a : Word) : (s.setI a).keys = s.keys := rfl
@[simp] theorem State.setI_rnd (a : Word) : (s.setI a).rnd = s.rnd := rfl
@[simp] theorem State.setI_frame (a : Word) : (s.setI a).frame = s.frame := rfl
@[simp] theorem State.setI_inbox (a : Word) : (s.setI a).inbox = s.inbox := rfl
@[simp] theorem State.setI_out (a : Word) : (s.setI a).out = s.out := rfl
@[simp] theorem State.setI_cfg (a : Word) : (s.setI a).cfg = s.cfg := rfl

/-! ## `setDT` -/

@[simp] theorem State.setDT_v (b : Byte) : (s.setDT b).v = s.v := rfl
@[simp] theorem State.setDT_i (b : Byte) : (s.setDT b).i = s.i := rfl
@[simp] theorem State.setDT_pc (b : Byte) : (s.setDT b).pc = s.pc := rfl
@[simp] theorem State.setDT_sp (b : Byte) : (s.setDT b).sp = s.sp := rfl
@[simp] theorem State.setDT_stack (b : Byte) : (s.setDT b).stack = s.stack := rfl
@[simp] theorem State.setDT_dt (b : Byte) : (s.setDT b).dt = b := rfl
@[simp] theorem State.setDT_st (b : Byte) : (s.setDT b).st = s.st := rfl
@[simp] theorem State.setDT_mem (b : Byte) : (s.setDT b).mem = s.mem := rfl
@[simp] theorem State.setDT_fb (b : Byte) : (s.setDT b).fb = s.fb := rfl
@[simp] theorem State.setDT_fbDirty (b : Byte) : (s.setDT b).fbDirty = s.fbDirty := rfl
@[simp] theorem State.setDT_run (b : Byte) : (s.setDT b).run = s.run := rfl
@[simp] theorem State.setDT_toneActive (b : Byte) : (s.setDT b).toneActive = s.toneActive := rfl
@[simp] theorem State.setDT_fault (b : Byte) : (s.setDT b).fault = s.fault := rfl
@[simp] theorem State.setDT_keys (b : Byte) : (s.setDT b).keys = s.keys := rfl
@[simp] theorem State.setDT_rnd (b : Byte) : (s.setDT b).rnd = s.rnd := rfl
@[simp] theorem State.setDT_frame (b : Byte) : (s.setDT b).frame = s.frame := rfl
@[simp] theorem State.setDT_inbox (b : Byte) : (s.setDT b).inbox = s.inbox := rfl
@[simp] theorem State.setDT_out (b : Byte) : (s.setDT b).out = s.out := rfl
@[simp] theorem State.setDT_cfg (b : Byte) : (s.setDT b).cfg = s.cfg := rfl

/-! ## `setST` -/

@[simp] theorem State.setST_v (b : Byte) : (s.setST b).v = s.v := rfl
@[simp] theorem State.setST_i (b : Byte) : (s.setST b).i = s.i := rfl
@[simp] theorem State.setST_pc (b : Byte) : (s.setST b).pc = s.pc := rfl
@[simp] theorem State.setST_sp (b : Byte) : (s.setST b).sp = s.sp := rfl
@[simp] theorem State.setST_stack (b : Byte) : (s.setST b).stack = s.stack := rfl
@[simp] theorem State.setST_dt (b : Byte) : (s.setST b).dt = s.dt := rfl
@[simp] theorem State.setST_st (b : Byte) : (s.setST b).st = b := rfl
@[simp] theorem State.setST_mem (b : Byte) : (s.setST b).mem = s.mem := rfl
@[simp] theorem State.setST_fb (b : Byte) : (s.setST b).fb = s.fb := rfl
@[simp] theorem State.setST_fbDirty (b : Byte) : (s.setST b).fbDirty = s.fbDirty := rfl
@[simp] theorem State.setST_run (b : Byte) : (s.setST b).run = s.run := rfl
@[simp] theorem State.setST_toneActive (b : Byte) : (s.setST b).toneActive = s.toneActive := rfl
@[simp] theorem State.setST_fault (b : Byte) : (s.setST b).fault = s.fault := rfl
@[simp] theorem State.setST_keys (b : Byte) : (s.setST b).keys = s.keys := rfl
@[simp] theorem State.setST_rnd (b : Byte) : (s.setST b).rnd = s.rnd := rfl
@[simp] theorem State.setST_frame (b : Byte) : (s.setST b).frame = s.frame := rfl
@[simp] theorem State.setST_inbox (b : Byte) : (s.setST b).inbox = s.inbox := rfl
@[simp] theorem State.setST_out (b : Byte) : (s.setST b).out = s.out := rfl
@[simp] theorem State.setST_cfg (b : Byte) : (s.setST b).cfg = s.cfg := rfl

/-! ## `pushAt` -/

@[simp] theorem State.pushAt_v (k : Fin 16) (a : Word) : (s.pushAt k a).v = s.v := rfl
@[simp] theorem State.pushAt_i (k : Fin 16) (a : Word) : (s.pushAt k a).i = s.i := rfl
@[simp] theorem State.pushAt_pc (k : Fin 16) (a : Word) : (s.pushAt k a).pc = s.pc := rfl
@[simp] theorem State.pushAt_sp (k : Fin 16) (a : Word) : (s.pushAt k a).sp = BitVec.ofNat 8 k.val := rfl
@[simp] theorem State.pushAt_stack (k : Fin 16) (a : Word) : (s.pushAt k a).stack = s.stack.set k.val a := rfl
@[simp] theorem State.pushAt_dt (k : Fin 16) (a : Word) : (s.pushAt k a).dt = s.dt := rfl
@[simp] theorem State.pushAt_st (k : Fin 16) (a : Word) : (s.pushAt k a).st = s.st := rfl
@[simp] theorem State.pushAt_mem (k : Fin 16) (a : Word) : (s.pushAt k a).mem = s.mem := rfl
@[simp] theorem State.pushAt_fb (k : Fin 16) (a : Word) : (s.pushAt k a).fb = s.fb := rfl
@[simp] theorem State.pushAt_fbDirty (k : Fin 16) (a : Word) : (s.pushAt k a).fbDirty = s.fbDirty := rfl
@[simp] theorem State.pushAt_run (k : Fin 16) (a : Word) : (s.pushAt k a).run = s.run := rfl
@[simp] theorem State.pushAt_toneActive (k : Fin 16) (a : Word) : (s.pushAt k a).toneActive = s.toneActive := rfl
@[simp] theorem State.pushAt_fault (k : Fin 16) (a : Word) : (s.pushAt k a).fault = s.fault := rfl
@[simp] theorem State.pushAt_keys (k : Fin 16) (a : Word) : (s.pushAt k a).keys = s.keys := rfl
@[simp] theorem State.pushAt_rnd (k : Fin 16) (a : Word) : (s.pushAt k a).rnd = s.rnd := rfl
@[simp] theorem State.pushAt_frame (k : Fin 16) (a : Word) : (s.pushAt k a).frame = s.frame := rfl
@[simp] theorem State.pushAt_inbox (k : Fin 16) (a : Word) : (s.pushAt k a).inbox = s.inbox := rfl
@[simp] theorem State.pushAt_out (k : Fin 16) (a : Word) : (s.pushAt k a).out = s.out := rfl
@[simp] theorem State.pushAt_cfg (k : Fin 16) (a : Word) : (s.pushAt k a).cfg = s.cfg := rfl

/-! ## `popFrom` -/

@[simp] theorem State.popFrom_v (k : Fin 16) : (s.popFrom k).v = s.v := rfl
@[simp] theorem State.popFrom_i (k : Fin 16) : (s.popFrom k).i = s.i := rfl
@[simp] theorem State.popFrom_pc (k : Fin 16) : (s.popFrom k).pc = s.stack[k.val] := rfl
@[simp] theorem State.popFrom_sp (k : Fin 16) : (s.popFrom k).sp = s.sp - 1 := rfl
@[simp] theorem State.popFrom_stack (k : Fin 16) : (s.popFrom k).stack = s.stack := rfl
@[simp] theorem State.popFrom_dt (k : Fin 16) : (s.popFrom k).dt = s.dt := rfl
@[simp] theorem State.popFrom_st (k : Fin 16) : (s.popFrom k).st = s.st := rfl
@[simp] theorem State.popFrom_mem (k : Fin 16) : (s.popFrom k).mem = s.mem := rfl
@[simp] theorem State.popFrom_fb (k : Fin 16) : (s.popFrom k).fb = s.fb := rfl
@[simp] theorem State.popFrom_fbDirty (k : Fin 16) : (s.popFrom k).fbDirty = s.fbDirty := rfl
@[simp] theorem State.popFrom_run (k : Fin 16) : (s.popFrom k).run = s.run := rfl
@[simp] theorem State.popFrom_toneActive (k : Fin 16) : (s.popFrom k).toneActive = s.toneActive := rfl
@[simp] theorem State.popFrom_fault (k : Fin 16) : (s.popFrom k).fault = s.fault := rfl
@[simp] theorem State.popFrom_keys (k : Fin 16) : (s.popFrom k).keys = s.keys := rfl
@[simp] theorem State.popFrom_rnd (k : Fin 16) : (s.popFrom k).rnd = s.rnd := rfl
@[simp] theorem State.popFrom_frame (k : Fin 16) : (s.popFrom k).frame = s.frame := rfl
@[simp] theorem State.popFrom_inbox (k : Fin 16) : (s.popFrom k).inbox = s.inbox := rfl
@[simp] theorem State.popFrom_out (k : Fin 16) : (s.popFrom k).out = s.out := rfl
@[simp] theorem State.popFrom_cfg (k : Fin 16) : (s.popFrom k).cfg = s.cfg := rfl

/-! ## `writeBytes` -/

@[simp] theorem State.writeBytes_v (a : Nat) (bs : List Byte) : (s.writeBytes a bs).v = s.v := rfl
@[simp] theorem State.writeBytes_i (a : Nat) (bs : List Byte) : (s.writeBytes a bs).i = s.i := rfl
@[simp] theorem State.writeBytes_pc (a : Nat) (bs : List Byte) : (s.writeBytes a bs).pc = s.pc := rfl
@[simp] theorem State.writeBytes_sp (a : Nat) (bs : List Byte) : (s.writeBytes a bs).sp = s.sp := rfl
@[simp] theorem State.writeBytes_stack (a : Nat) (bs : List Byte) : (s.writeBytes a bs).stack = s.stack := rfl
@[simp] theorem State.writeBytes_dt (a : Nat) (bs : List Byte) : (s.writeBytes a bs).dt = s.dt := rfl
@[simp] theorem State.writeBytes_st (a : Nat) (bs : List Byte) : (s.writeBytes a bs).st = s.st := rfl
@[simp] theorem State.writeBytes_mem (a : Nat) (bs : List Byte) : (s.writeBytes a bs).mem = s.mem.writeRun s.cfg.fontBase.val a bs := rfl
@[simp] theorem State.writeBytes_fb (a : Nat) (bs : List Byte) : (s.writeBytes a bs).fb = s.fb := rfl
@[simp] theorem State.writeBytes_fbDirty (a : Nat) (bs : List Byte) : (s.writeBytes a bs).fbDirty = s.fbDirty := rfl
@[simp] theorem State.writeBytes_run (a : Nat) (bs : List Byte) : (s.writeBytes a bs).run = s.run := rfl
@[simp] theorem State.writeBytes_toneActive (a : Nat) (bs : List Byte) : (s.writeBytes a bs).toneActive = s.toneActive := rfl
@[simp] theorem State.writeBytes_fault (a : Nat) (bs : List Byte) : (s.writeBytes a bs).fault = s.fault := rfl
@[simp] theorem State.writeBytes_keys (a : Nat) (bs : List Byte) : (s.writeBytes a bs).keys = s.keys := rfl
@[simp] theorem State.writeBytes_rnd (a : Nat) (bs : List Byte) : (s.writeBytes a bs).rnd = s.rnd := rfl
@[simp] theorem State.writeBytes_frame (a : Nat) (bs : List Byte) : (s.writeBytes a bs).frame = s.frame := rfl
@[simp] theorem State.writeBytes_inbox (a : Nat) (bs : List Byte) : (s.writeBytes a bs).inbox = s.inbox := rfl
@[simp] theorem State.writeBytes_out (a : Nat) (bs : List Byte) : (s.writeBytes a bs).out = s.out := rfl
@[simp] theorem State.writeBytes_cfg (a : Nat) (bs : List Byte) : (s.writeBytes a bs).cfg = s.cfg := rfl

/-! ## `emit` -/

@[simp] theorem State.emit_v (o : Output) : (s.emit o).v = s.v := rfl
@[simp] theorem State.emit_i (o : Output) : (s.emit o).i = s.i := rfl
@[simp] theorem State.emit_pc (o : Output) : (s.emit o).pc = s.pc := rfl
@[simp] theorem State.emit_sp (o : Output) : (s.emit o).sp = s.sp := rfl
@[simp] theorem State.emit_stack (o : Output) : (s.emit o).stack = s.stack := rfl
@[simp] theorem State.emit_dt (o : Output) : (s.emit o).dt = s.dt := rfl
@[simp] theorem State.emit_st (o : Output) : (s.emit o).st = s.st := rfl
@[simp] theorem State.emit_mem (o : Output) : (s.emit o).mem = s.mem := rfl
@[simp] theorem State.emit_fb (o : Output) : (s.emit o).fb = s.fb := rfl
@[simp] theorem State.emit_fbDirty (o : Output) : (s.emit o).fbDirty = s.fbDirty := rfl
@[simp] theorem State.emit_run (o : Output) : (s.emit o).run = s.run := rfl
@[simp] theorem State.emit_toneActive (o : Output) : (s.emit o).toneActive = s.toneActive := rfl
@[simp] theorem State.emit_fault (o : Output) : (s.emit o).fault = s.fault := rfl
@[simp] theorem State.emit_keys (o : Output) : (s.emit o).keys = s.keys := rfl
@[simp] theorem State.emit_rnd (o : Output) : (s.emit o).rnd = s.rnd := rfl
@[simp] theorem State.emit_frame (o : Output) : (s.emit o).frame = s.frame := rfl
@[simp] theorem State.emit_inbox (o : Output) : (s.emit o).inbox = s.inbox := rfl
@[simp] theorem State.emit_out (o : Output) : (s.emit o).out = o :: s.out := rfl
@[simp] theorem State.emit_cfg (o : Output) : (s.emit o).cfg = s.cfg := rfl

/-! ## `takeFault` -/

@[simp] theorem State.takeFault_v (r : FaultRecord) : (s.takeFault r).v = s.v := rfl
@[simp] theorem State.takeFault_i (r : FaultRecord) : (s.takeFault r).i = s.i := rfl
@[simp] theorem State.takeFault_pc (r : FaultRecord) : (s.takeFault r).pc = s.pc := rfl
@[simp] theorem State.takeFault_sp (r : FaultRecord) : (s.takeFault r).sp = s.sp := rfl
@[simp] theorem State.takeFault_stack (r : FaultRecord) : (s.takeFault r).stack = s.stack := rfl
@[simp] theorem State.takeFault_dt (r : FaultRecord) : (s.takeFault r).dt = s.dt := rfl
@[simp] theorem State.takeFault_st (r : FaultRecord) : (s.takeFault r).st = s.st := rfl
@[simp] theorem State.takeFault_mem (r : FaultRecord) : (s.takeFault r).mem = s.mem := rfl
@[simp] theorem State.takeFault_fb (r : FaultRecord) : (s.takeFault r).fb = s.fb := rfl
@[simp] theorem State.takeFault_fbDirty (r : FaultRecord) : (s.takeFault r).fbDirty = s.fbDirty := rfl
@[simp] theorem State.takeFault_run (r : FaultRecord) : (s.takeFault r).run = .idle := rfl
@[simp] theorem State.takeFault_toneActive (r : FaultRecord) : (s.takeFault r).toneActive = s.toneActive := rfl
@[simp] theorem State.takeFault_keys (r : FaultRecord) : (s.takeFault r).keys = s.keys := rfl
@[simp] theorem State.takeFault_rnd (r : FaultRecord) : (s.takeFault r).rnd = s.rnd := rfl
@[simp] theorem State.takeFault_frame (r : FaultRecord) : (s.takeFault r).frame = none := rfl
@[simp] theorem State.takeFault_inbox (r : FaultRecord) : (s.takeFault r).inbox = s.inbox := rfl
@[simp] theorem State.takeFault_out (r : FaultRecord) : (s.takeFault r).out = s.out := rfl
@[simp] theorem State.takeFault_cfg (r : FaultRecord) : (s.takeFault r).cfg = s.cfg := rfl

/-! ## `beginTick` -/

@[simp] theorem State.beginTick_v (input : TickInput) (rest : List TickInput) : (s.beginTick input rest).v = s.v := rfl
@[simp] theorem State.beginTick_i (input : TickInput) (rest : List TickInput) : (s.beginTick input rest).i = s.i := rfl
@[simp] theorem State.beginTick_pc (input : TickInput) (rest : List TickInput) : (s.beginTick input rest).pc = s.pc := rfl
@[simp] theorem State.beginTick_sp (input : TickInput) (rest : List TickInput) : (s.beginTick input rest).sp = s.sp := rfl
@[simp] theorem State.beginTick_stack (input : TickInput) (rest : List TickInput) : (s.beginTick input rest).stack = s.stack := rfl
@[simp] theorem State.beginTick_dt (input : TickInput) (rest : List TickInput) : (s.beginTick input rest).dt = s.dt := rfl
@[simp] theorem State.beginTick_st (input : TickInput) (rest : List TickInput) : (s.beginTick input rest).st = s.st := rfl
@[simp] theorem State.beginTick_mem (input : TickInput) (rest : List TickInput) : (s.beginTick input rest).mem = s.mem := rfl
@[simp] theorem State.beginTick_fb (input : TickInput) (rest : List TickInput) : (s.beginTick input rest).fb = s.fb := rfl
@[simp] theorem State.beginTick_fbDirty (input : TickInput) (rest : List TickInput) : (s.beginTick input rest).fbDirty = s.fbDirty := rfl
@[simp] theorem State.beginTick_run (input : TickInput) (rest : List TickInput) : (s.beginTick input rest).run = s.run := rfl
@[simp] theorem State.beginTick_toneActive (input : TickInput) (rest : List TickInput) : (s.beginTick input rest).toneActive = s.toneActive := rfl
@[simp] theorem State.beginTick_fault (input : TickInput) (rest : List TickInput) : (s.beginTick input rest).fault = s.fault := rfl
@[simp] theorem State.beginTick_keys (input : TickInput) (rest : List TickInput) : (s.beginTick input rest).keys = input.keys := rfl
@[simp] theorem State.beginTick_rnd (input : TickInput) (rest : List TickInput) : (s.beginTick input rest).rnd = input.rnd := rfl
@[simp] theorem State.beginTick_frame (input : TickInput) (rest : List TickInput) : (s.beginTick input rest).frame = some rest := rfl
@[simp] theorem State.beginTick_inbox (input : TickInput) (rest : List TickInput) : (s.beginTick input rest).inbox = s.inbox := rfl
@[simp] theorem State.beginTick_out (input : TickInput) (rest : List TickInput) : (s.beginTick input rest).out = s.out := rfl
@[simp] theorem State.beginTick_cfg (input : TickInput) (rest : List TickInput) : (s.beginTick input rest).cfg = s.cfg := rfl

/-- The record latched when none was (R199). -/
@[simp] theorem State.takeFault_fault (r : FaultRecord) (h : s.fault = none) :
    (s.takeFault r).fault = some r := by simp [State.takeFault, h]

/-- The first record stays (R199). -/
@[simp] theorem State.takeFault_fault_latched (r old : FaultRecord) (h : s.fault = some old) :
    (s.takeFault r).fault = some old := by simp [State.takeFault, h]

/-! ## `setFlagThenV` -/

@[simp] theorem State.setFlagThenV_i (flag : Byte) (x : Reg) (result : Byte) : (s.setFlagThenV flag x result).i = s.i := rfl
@[simp] theorem State.setFlagThenV_pc (flag : Byte) (x : Reg) (result : Byte) : (s.setFlagThenV flag x result).pc = s.pc := rfl
@[simp] theorem State.setFlagThenV_sp (flag : Byte) (x : Reg) (result : Byte) : (s.setFlagThenV flag x result).sp = s.sp := rfl
@[simp] theorem State.setFlagThenV_stack (flag : Byte) (x : Reg) (result : Byte) : (s.setFlagThenV flag x result).stack = s.stack := rfl
@[simp] theorem State.setFlagThenV_dt (flag : Byte) (x : Reg) (result : Byte) : (s.setFlagThenV flag x result).dt = s.dt := rfl
@[simp] theorem State.setFlagThenV_st (flag : Byte) (x : Reg) (result : Byte) : (s.setFlagThenV flag x result).st = s.st := rfl
@[simp] theorem State.setFlagThenV_mem (flag : Byte) (x : Reg) (result : Byte) : (s.setFlagThenV flag x result).mem = s.mem := rfl
@[simp] theorem State.setFlagThenV_fb (flag : Byte) (x : Reg) (result : Byte) : (s.setFlagThenV flag x result).fb = s.fb := rfl
@[simp] theorem State.setFlagThenV_fbDirty (flag : Byte) (x : Reg) (result : Byte) : (s.setFlagThenV flag x result).fbDirty = s.fbDirty := rfl
@[simp] theorem State.setFlagThenV_run (flag : Byte) (x : Reg) (result : Byte) : (s.setFlagThenV flag x result).run = s.run := rfl
@[simp] theorem State.setFlagThenV_toneActive (flag : Byte) (x : Reg) (result : Byte) : (s.setFlagThenV flag x result).toneActive = s.toneActive := rfl
@[simp] theorem State.setFlagThenV_fault (flag : Byte) (x : Reg) (result : Byte) : (s.setFlagThenV flag x result).fault = s.fault := rfl
@[simp] theorem State.setFlagThenV_keys (flag : Byte) (x : Reg) (result : Byte) : (s.setFlagThenV flag x result).keys = s.keys := rfl
@[simp] theorem State.setFlagThenV_rnd (flag : Byte) (x : Reg) (result : Byte) : (s.setFlagThenV flag x result).rnd = s.rnd := rfl
@[simp] theorem State.setFlagThenV_frame (flag : Byte) (x : Reg) (result : Byte) : (s.setFlagThenV flag x result).frame = s.frame := rfl
@[simp] theorem State.setFlagThenV_inbox (flag : Byte) (x : Reg) (result : Byte) : (s.setFlagThenV flag x result).inbox = s.inbox := rfl
@[simp] theorem State.setFlagThenV_out (flag : Byte) (x : Reg) (result : Byte) : (s.setFlagThenV flag x result).out = s.out := rfl
@[simp] theorem State.setFlagThenV_cfg (flag : Byte) (x : Reg) (result : Byte) : (s.setFlagThenV flag x result).cfg = s.cfg := rfl

/-! ## `skipIf` -/

@[simp] theorem State.skipIf_v (c : Bool) : (s.skipIf c).v = s.v := by cases c <;> rfl
@[simp] theorem State.skipIf_i (c : Bool) : (s.skipIf c).i = s.i := by cases c <;> rfl
@[simp] theorem State.skipIf_sp (c : Bool) : (s.skipIf c).sp = s.sp := by cases c <;> rfl
@[simp] theorem State.skipIf_stack (c : Bool) : (s.skipIf c).stack = s.stack := by cases c <;> rfl
@[simp] theorem State.skipIf_dt (c : Bool) : (s.skipIf c).dt = s.dt := by cases c <;> rfl
@[simp] theorem State.skipIf_st (c : Bool) : (s.skipIf c).st = s.st := by cases c <;> rfl
@[simp] theorem State.skipIf_mem (c : Bool) : (s.skipIf c).mem = s.mem := by cases c <;> rfl
@[simp] theorem State.skipIf_fb (c : Bool) : (s.skipIf c).fb = s.fb := by cases c <;> rfl
@[simp] theorem State.skipIf_fbDirty (c : Bool) : (s.skipIf c).fbDirty = s.fbDirty := by cases c <;> rfl
@[simp] theorem State.skipIf_run (c : Bool) : (s.skipIf c).run = s.run := by cases c <;> rfl
@[simp] theorem State.skipIf_toneActive (c : Bool) : (s.skipIf c).toneActive = s.toneActive := by cases c <;> rfl
@[simp] theorem State.skipIf_fault (c : Bool) : (s.skipIf c).fault = s.fault := by cases c <;> rfl
@[simp] theorem State.skipIf_keys (c : Bool) : (s.skipIf c).keys = s.keys := by cases c <;> rfl
@[simp] theorem State.skipIf_rnd (c : Bool) : (s.skipIf c).rnd = s.rnd := by cases c <;> rfl
@[simp] theorem State.skipIf_frame (c : Bool) : (s.skipIf c).frame = s.frame := by cases c <;> rfl
@[simp] theorem State.skipIf_inbox (c : Bool) : (s.skipIf c).inbox = s.inbox := by cases c <;> rfl
@[simp] theorem State.skipIf_out (c : Bool) : (s.skipIf c).out = s.out := by cases c <;> rfl
@[simp] theorem State.skipIf_cfg (c : Bool) : (s.skipIf c).cfg = s.cfg := by cases c <;> rfl

/-! ## `drawSprite` -/

@[simp] theorem State.drawSprite_i (x y : Reg) (rows : List Byte) : (s.drawSprite x y rows).i = s.i := rfl
@[simp] theorem State.drawSprite_pc (x y : Reg) (rows : List Byte) : (s.drawSprite x y rows).pc = s.pc := rfl
@[simp] theorem State.drawSprite_sp (x y : Reg) (rows : List Byte) : (s.drawSprite x y rows).sp = s.sp := rfl
@[simp] theorem State.drawSprite_stack (x y : Reg) (rows : List Byte) : (s.drawSprite x y rows).stack = s.stack := rfl
@[simp] theorem State.drawSprite_dt (x y : Reg) (rows : List Byte) : (s.drawSprite x y rows).dt = s.dt := rfl
@[simp] theorem State.drawSprite_st (x y : Reg) (rows : List Byte) : (s.drawSprite x y rows).st = s.st := rfl
@[simp] theorem State.drawSprite_mem (x y : Reg) (rows : List Byte) : (s.drawSprite x y rows).mem = s.mem := rfl
@[simp] theorem State.drawSprite_run (x y : Reg) (rows : List Byte) : (s.drawSprite x y rows).run = s.run := rfl
@[simp] theorem State.drawSprite_toneActive (x y : Reg) (rows : List Byte) : (s.drawSprite x y rows).toneActive = s.toneActive := rfl
@[simp] theorem State.drawSprite_fault (x y : Reg) (rows : List Byte) : (s.drawSprite x y rows).fault = s.fault := rfl
@[simp] theorem State.drawSprite_keys (x y : Reg) (rows : List Byte) : (s.drawSprite x y rows).keys = s.keys := rfl
@[simp] theorem State.drawSprite_rnd (x y : Reg) (rows : List Byte) : (s.drawSprite x y rows).rnd = s.rnd := rfl
@[simp] theorem State.drawSprite_frame (x y : Reg) (rows : List Byte) : (s.drawSprite x y rows).frame = s.frame := rfl
@[simp] theorem State.drawSprite_inbox (x y : Reg) (rows : List Byte) : (s.drawSprite x y rows).inbox = s.inbox := rfl
@[simp] theorem State.drawSprite_out (x y : Reg) (rows : List Byte) : (s.drawSprite x y rows).out = s.out := rfl
@[simp] theorem State.drawSprite_cfg (x y : Reg) (rows : List Byte) : (s.drawSprite x y rows).cfg = s.cfg := rfl

/-! ## `frameEnd` -/

@[simp] theorem State.frameEnd_v  : (s.frameEnd).v = s.v := rfl
@[simp] theorem State.frameEnd_i  : (s.frameEnd).i = s.i := rfl
@[simp] theorem State.frameEnd_pc  : (s.frameEnd).pc = s.pc := rfl
@[simp] theorem State.frameEnd_sp  : (s.frameEnd).sp = s.sp := rfl
@[simp] theorem State.frameEnd_stack  : (s.frameEnd).stack = s.stack := rfl
@[simp] theorem State.frameEnd_mem  : (s.frameEnd).mem = s.mem := rfl
@[simp] theorem State.frameEnd_fb  : (s.frameEnd).fb = s.fb := rfl
@[simp] theorem State.frameEnd_run  : (s.frameEnd).run = s.run := rfl
@[simp] theorem State.frameEnd_fault  : (s.frameEnd).fault = s.fault := rfl
@[simp] theorem State.frameEnd_keys  : (s.frameEnd).keys = s.keys := rfl
@[simp] theorem State.frameEnd_rnd  : (s.frameEnd).rnd = s.rnd := rfl
@[simp] theorem State.frameEnd_inbox  : (s.frameEnd).inbox = s.inbox := rfl
@[simp] theorem State.frameEnd_cfg  : (s.frameEnd).cfg = s.cfg := rfl

/-! ## `setVFrom` -/

@[simp] theorem State.setVFrom_i (k : Nat) (bs : List Byte) : (s.setVFrom k bs).i = s.i := by
  induction bs generalizing s k with
  | nil => rfl
  | cons b bs ih => unfold State.setVFrom; split <;> simp [ih]

@[simp] theorem State.setVFrom_pc (k : Nat) (bs : List Byte) : (s.setVFrom k bs).pc = s.pc := by
  induction bs generalizing s k with
  | nil => rfl
  | cons b bs ih => unfold State.setVFrom; split <;> simp [ih]

@[simp] theorem State.setVFrom_sp (k : Nat) (bs : List Byte) : (s.setVFrom k bs).sp = s.sp := by
  induction bs generalizing s k with
  | nil => rfl
  | cons b bs ih => unfold State.setVFrom; split <;> simp [ih]

@[simp] theorem State.setVFrom_stack (k : Nat) (bs : List Byte) : (s.setVFrom k bs).stack = s.stack := by
  induction bs generalizing s k with
  | nil => rfl
  | cons b bs ih => unfold State.setVFrom; split <;> simp [ih]

@[simp] theorem State.setVFrom_dt (k : Nat) (bs : List Byte) : (s.setVFrom k bs).dt = s.dt := by
  induction bs generalizing s k with
  | nil => rfl
  | cons b bs ih => unfold State.setVFrom; split <;> simp [ih]

@[simp] theorem State.setVFrom_st (k : Nat) (bs : List Byte) : (s.setVFrom k bs).st = s.st := by
  induction bs generalizing s k with
  | nil => rfl
  | cons b bs ih => unfold State.setVFrom; split <;> simp [ih]

@[simp] theorem State.setVFrom_mem (k : Nat) (bs : List Byte) : (s.setVFrom k bs).mem = s.mem := by
  induction bs generalizing s k with
  | nil => rfl
  | cons b bs ih => unfold State.setVFrom; split <;> simp [ih]

@[simp] theorem State.setVFrom_fb (k : Nat) (bs : List Byte) : (s.setVFrom k bs).fb = s.fb := by
  induction bs generalizing s k with
  | nil => rfl
  | cons b bs ih => unfold State.setVFrom; split <;> simp [ih]

@[simp] theorem State.setVFrom_fbDirty (k : Nat) (bs : List Byte) : (s.setVFrom k bs).fbDirty = s.fbDirty := by
  induction bs generalizing s k with
  | nil => rfl
  | cons b bs ih => unfold State.setVFrom; split <;> simp [ih]

@[simp] theorem State.setVFrom_run (k : Nat) (bs : List Byte) : (s.setVFrom k bs).run = s.run := by
  induction bs generalizing s k with
  | nil => rfl
  | cons b bs ih => unfold State.setVFrom; split <;> simp [ih]

@[simp] theorem State.setVFrom_toneActive (k : Nat) (bs : List Byte) : (s.setVFrom k bs).toneActive = s.toneActive := by
  induction bs generalizing s k with
  | nil => rfl
  | cons b bs ih => unfold State.setVFrom; split <;> simp [ih]

@[simp] theorem State.setVFrom_fault (k : Nat) (bs : List Byte) : (s.setVFrom k bs).fault = s.fault := by
  induction bs generalizing s k with
  | nil => rfl
  | cons b bs ih => unfold State.setVFrom; split <;> simp [ih]

@[simp] theorem State.setVFrom_keys (k : Nat) (bs : List Byte) : (s.setVFrom k bs).keys = s.keys := by
  induction bs generalizing s k with
  | nil => rfl
  | cons b bs ih => unfold State.setVFrom; split <;> simp [ih]

@[simp] theorem State.setVFrom_rnd (k : Nat) (bs : List Byte) : (s.setVFrom k bs).rnd = s.rnd := by
  induction bs generalizing s k with
  | nil => rfl
  | cons b bs ih => unfold State.setVFrom; split <;> simp [ih]

@[simp] theorem State.setVFrom_frame (k : Nat) (bs : List Byte) : (s.setVFrom k bs).frame = s.frame := by
  induction bs generalizing s k with
  | nil => rfl
  | cons b bs ih => unfold State.setVFrom; split <;> simp [ih]

@[simp] theorem State.setVFrom_inbox (k : Nat) (bs : List Byte) : (s.setVFrom k bs).inbox = s.inbox := by
  induction bs generalizing s k with
  | nil => rfl
  | cons b bs ih => unfold State.setVFrom; split <;> simp [ih]

@[simp] theorem State.setVFrom_out (k : Nat) (bs : List Byte) : (s.setVFrom k bs).out = s.out := by
  induction bs generalizing s k with
  | nil => rfl
  | cons b bs ih => unfold State.setVFrom; split <;> simp [ih]

@[simp] theorem State.setVFrom_cfg (k : Nat) (bs : List Byte) : (s.setVFrom k bs).cfg = s.cfg := by
  induction bs generalizing s k with
  | nil => rfl
  | cons b bs ih => unfold State.setVFrom; split <;> simp [ih]

end Sys2Proof.Machine
end

