-- ==== Sys2Proof/Laws/Memory.lean ====
section
/-! SUPPORT. Memory: read after write, at the same address and at another; the run of bytes; and every write
keeps the canonical form. -/

namespace Sys2Proof.Machine

open Sys2Proof

/-! ## The list of one address -/

theorem Memory.listed_enter (m : Memory) (a c : Nat) (b : Byte) :
    (m.enter a b).listed c = if a = c then some b else m.listed c := by
  induction m with
  | nil => simp [Memory.enter, Memory.listed]
  | cons e m ih =>
    obtain ⟨k, d⟩ := e
    simp only [Memory.enter]
    split
    · simp [Memory.listed]
    · split
      · subst a; by_cases h : k = c <;> simp [Memory.listed, h]
      · by_cases h : k = c
        · subst k; simp [Memory.listed]; omega
        · simp [Memory.listed, h, ih]

theorem Memory.listed_drop (m : Memory) (a c : Nat) :
    (m.drop a).listed c = if a = c then none else m.listed c := by
  induction m with
  | nil => simp [Memory.drop, Memory.listed]
  | cons e m ih =>
    obtain ⟨k, d⟩ := e
    by_cases hk : k = a
    · subst k
      by_cases h : a = c
      · subst c; simpa [Memory.drop] using ih
      · simp [Memory.drop, Memory.listed, ih, h]
    · by_cases h : k = c
      · subst k; simp [Memory.drop, Memory.listed, hk, Ne.symm hk]
      · simp [Memory.drop, Memory.listed, hk, h, ih]

/-! ## Reading after writing -/

theorem Memory.read_write (f : Nat) (m : Memory) (a c : Nat) (b : Byte) :
    (m.write f a b).read f c = if a = c then b else m.read f c := by
  unfold Memory.write Memory.read
  split
  · rw [Memory.listed_drop]; split <;> simp_all
  · rw [Memory.listed_enter]; split <;> simp_all

@[simp] theorem Memory.read_write_same (f : Nat) (m : Memory) (a : Nat) (b : Byte) :
    (m.write f a b).read f a = b := by simp [Memory.read_write]

theorem Memory.read_write_other (f : Nat) (m : Memory) {a c : Nat} (b : Byte) (h : a ≠ c) :
    (m.write f a b).read f c = m.read f c := by simp [Memory.read_write, h]

/-- Below the run nothing changes. -/
theorem Memory.read_writeRun_below (f : Nat) (m : Memory) (a c : Nat) (bs : List Byte) (h : c < a) :
    (m.writeRun f a bs).read f c = m.read f c := by
  induction bs generalizing m a with
  | nil => rfl
  | cons b bs ih =>
    rw [Memory.writeRun, ih _ _ (by omega), Memory.read_write_other _ _ _ (by omega)]

/-- Inside the run the byte written is read. -/
theorem Memory.read_writeRun_inside (f : Nat) (m : Memory) (a k : Nat) (bs : List Byte)
    (h : k < bs.length) : (m.writeRun f a bs).read f (a + k) = bs[k] := by
  induction bs generalizing m a k with
  | nil => simp at h
  | cons b bs ih =>
    cases k with
    | zero => rw [Memory.writeRun, Memory.read_writeRun_below _ _ _ _ _ (by omega)]; simp
    | succ k =>
      have := ih (m.write f a b) (a + 1) k (by simpa using h)
      rw [Memory.writeRun, show a + (k + 1) = a + 1 + k by omega, this]; rfl

/-- Outside the run nothing changes. -/
theorem Memory.read_writeRun_outside (f : Nat) (m : Memory) (a c : Nat) (bs : List Byte)
    (h : c < a ∨ a + bs.length ≤ c) : (m.writeRun f a bs).read f c = m.read f c := by
  induction bs generalizing m a with
  | nil => rfl
  | cons b bs ih =>
    simp only [List.length_cons] at h
    rw [Memory.writeRun, ih _ _ (by omega), Memory.read_write_other _ _ _ (by omega)]

/-! ## The canonical form -/

theorem Memory.wfAbove_cons {f : Nat} {lo : Option Nat} {m : Memory} {a : Nat} {b : Byte} :
    Memory.wfAbove f lo ((a, b) :: m) = true ↔
      (∀ l, lo = some l → l < a) ∧ a < 4096 ∧ b ≠ resetByte f a ∧ Memory.wfAbove f (some a) m = true := by
  cases lo <;> simp [Memory.wfAbove, isAbove, and_assoc]

theorem Memory.wfAbove_weaken {f : Nat} {lo hi : Option Nat} {m : Memory}
    (h : Memory.wfAbove f hi m = true)
    (hle : ∀ l, lo = some l → ∃ u, hi = some u ∧ l ≤ u) : Memory.wfAbove f lo m = true := by
  cases m with
  | nil => rfl
  | cons e m =>
    obtain ⟨habove, ha, hb, hm⟩ := Memory.wfAbove_cons.1 h
    refine Memory.wfAbove_cons.2 ⟨fun l hl => ?_, ha, hb, hm⟩
    obtain ⟨u, hu, hlu⟩ := hle l hl
    exact Nat.lt_of_le_of_lt hlu (habove u hu)

theorem Memory.wfAbove_drop {f : Nat} {lo : Option Nat} {m : Memory} (a : Nat)
    (h : Memory.wfAbove f lo m = true) : Memory.wfAbove f lo (m.drop a) = true := by
  induction m generalizing lo with
  | nil => rfl
  | cons e m ih =>
    obtain ⟨k, c⟩ := e
    obtain ⟨habove, ha, hb, hm⟩ := Memory.wfAbove_cons.1 h
    simp only [Memory.drop]
    split
    · exact Memory.wfAbove_weaken (ih hm) fun l hl => ⟨k, rfl, Nat.le_of_lt (habove l hl)⟩
    · exact Memory.wfAbove_cons.2 ⟨habove, ha, hb, ih hm⟩

theorem Memory.wfAbove_enter {f : Nat} {lo : Option Nat} {m : Memory} {a : Nat} {b : Byte}
    (h : Memory.wfAbove f lo m = true) (hlo : ∀ l, lo = some l → l < a) (ha : a < 4096)
    (hb : b ≠ resetByte f a) : Memory.wfAbove f lo (m.enter a b) = true := by
  induction m generalizing lo with
  | nil => exact Memory.wfAbove_cons.2 ⟨hlo, ha, hb, rfl⟩
  | cons e m ih =>
    obtain ⟨k, c⟩ := e
    obtain ⟨habove, hk, hc, hm⟩ := Memory.wfAbove_cons.1 h
    simp only [Memory.enter]
    split
    · rename_i hak
      refine Memory.wfAbove_cons.2 ⟨hlo, ha, hb, Memory.wfAbove_cons.2 ⟨?_, hk, hc, hm⟩⟩
      rintro l ⟨⟩
      exact hak
    · split
      · subst k
        exact Memory.wfAbove_cons.2 ⟨hlo, ha, hb, hm⟩
      · refine Memory.wfAbove_cons.2 ⟨habove, hk, hc, ih hm ?_⟩
        rintro l ⟨⟩
        omega

/-- A write at an address of the memory keeps the canonical form. -/
theorem Memory.wf_write {f : Nat} {m : Memory} {a : Nat} (b : Byte) (h : m.wf f = true)
    (ha : a < 4096) : (m.write f a b).wf f = true := by
  unfold Memory.wf Memory.write at *
  split
  · exact Memory.wfAbove_drop a h
  · exact Memory.wfAbove_enter h (by simp) ha ‹_›

/-- A run of writes inside the memory keeps the canonical form. -/
theorem Memory.wf_writeRun {f : Nat} {m : Memory} {a : Nat} (bs : List Byte) (h : m.wf f = true)
    (ha : a + bs.length ≤ 4096) : (m.writeRun f a bs).wf f = true := by
  induction bs generalizing m a with
  | nil => exact h
  | cons b bs ih =>
    simp only [List.length_cons] at ha
    exact ih (Memory.wf_write b h (by omega)) (by omega)

/-- Memory after reset is in canonical form and reads as the reset contents. -/
@[simp] theorem Memory.wf_nil (f : Nat) : Memory.wf f [] = true := rfl

@[simp] theorem Memory.read_nil (f a : Nat) : Memory.read f [] a = resetByte f a := rfl

/-! ## The same through the state -/

theorem State.readByte_writeBytes_inside (s : State) (a k : Nat) (bs : List Byte) (h : k < bs.length) :
    (s.writeBytes a bs).readByte (a + k) = bs[k] :=
  Memory.read_writeRun_inside _ _ _ _ _ h

theorem State.readByte_writeBytes_outside (s : State) (a c : Nat) (bs : List Byte)
    (h : c < a ∨ a + bs.length ≤ c) : (s.writeBytes a bs).readByte c = s.readByte c :=
  Memory.read_writeRun_outside _ _ _ _ _ h

/-- A state with the same memory and parameters reads the same bytes. -/
theorem State.readByte_congr {s t : State} (hm : t.mem = s.mem) (hc : t.cfg = s.cfg) (a : Nat) :
    t.readByte a = s.readByte a := by unfold State.readByte; rw [hm, hc]

/-- A run of bytes, and a checked read, depend on memory and `FONT_BASE` alone. -/
theorem State.bytesAt_congr {s t : State} (hm : t.mem = s.mem) (hc : t.cfg = s.cfg) (a n : Nat) :
    t.bytesAt a n = s.bytesAt a n := by
  induction n generalizing a with
  | zero => rfl
  | succ n ih => simp only [State.bytesAt, ih, State.readByte_congr hm hc]

theorem State.memRead_congr {s t : State} (hm : t.mem = s.mem) (hc : t.cfg = s.cfg) (a n : Nat) :
    t.memRead a n = s.memRead a n := by
  simp only [State.memRead, State.bytesAt_congr hm hc]

theorem State.bytesAt_length (s : State) (a n : Nat) : (s.bytesAt a n).length = n := by
  induction n generalizing a with
  | zero => rfl
  | succ n ih => simp [State.bytesAt, ih]

theorem State.bytesAt_get (s : State) (a n k : Nat) (h : k < (s.bytesAt a n).length) :
    (s.bytesAt a n)[k] = s.readByte (a + k) := by
  induction n generalizing a k with
  | zero => simp [State.bytesAt] at h
  | succ n ih =>
    cases k with
    | zero => rfl
    | succ k =>
      simp only [State.bytesAt, List.getElem_cons_succ]
      rw [ih, show a + 1 + k = a + (k + 1) by omega]

/-- R59: the bound. -/
theorem boundError_none {a n : Nat} : boundError a n = none ↔ a + n ≤ 4096 := by
  unfold boundError; split <;> simp <;> omega

theorem boundError_some {a n : Nat} (h : 4096 < a + n) :
    boundError a n = some (max a 4096) := by
  unfold boundError; rw [if_pos (by omega)]

/-- R60: a read inside the memory gives its bytes. -/
theorem State.memRead_inside (s : State) {a n : Nat} (h : a + n ≤ 4096) :
    s.memRead a n = .ok (s.bytesAt a n) := by
  unfold State.memRead; rw [boundError_none.2 h]

/-- R60: a read past 4095 gives the lowest out-of-range address. -/
theorem State.memRead_outside (s : State) {a n : Nat} (h : 4096 < a + n) :
    s.memRead a n = .error (max a 4096) := by
  unfold State.memRead; rw [boundError_some h]

/-- R61: a write inside the memory stores its bytes. -/
theorem State.memWrite_inside (s : State) {a : Nat} {bs : List Byte}
    (h : a + bs.length ≤ 4096) : s.memWrite a bs = .ok (s.writeBytes a bs) := by
  unfold State.memWrite; rw [boundError_none.2 h]

/-- R61: a write past 4095 stores nothing and gives the lowest out-of-range address. -/
theorem State.memWrite_outside (s : State) {a : Nat} {bs : List Byte}
    (h : 4096 < a + bs.length) : s.memWrite a bs = .error (max a 4096) := by
  unfold State.memWrite; rw [boundError_some h]

end Sys2Proof.Machine
end

