-- ==== Sys2Proof/Laws/Registers.lean ====
section
/-! SUPPORT. The register file: read after write, the flag-then-result pair (R133), the run of registers a
block load writes, and the registers a block store reads. -/

namespace Sys2Proof.Machine

open Sys2Proof

theorem State.getV_setV (s : State) (r q : Reg) (b : Byte) :
    (s.setV r b).getV q = if r = q then b else s.getV q := by
  simp only [State.getV, State.setV, Vector.getElem_set, Fin.ext_iff]

@[simp] theorem State.getV_setV_same (s : State) (r : Reg) (b : Byte) : (s.setV r b).getV r = b := by
  simp [State.getV_setV]

theorem State.getV_setV_other (s : State) {r q : Reg} (b : Byte) (h : r ≠ q) :
    (s.setV r b).getV q = s.getV q := by simp [State.getV_setV, h]

/-- A state with the same register file has the same registers. -/
theorem State.getV_congr {s t : State} (h : t.v = s.v) (r : Reg) : t.getV r = s.getV r := by
  unfold State.getV; simp [h]

/-- R133: with `x = 15` the result is what `VF` holds; otherwise the flag is. -/
theorem State.getV_setFlagThenV (s : State) (flag : Byte) (x : Reg) (result : Byte) (q : Reg) :
    (s.setFlagThenV flag x result).getV q =
      if x = q then result else if vF = q then flag else s.getV q := by
  simp [State.setFlagThenV, State.getV_setV]

/-- A block load writes the registers from `k` on and no other. -/
theorem State.getV_setVFrom (s : State) (k : Nat) (bs : List Byte) (q : Reg) (h : k + bs.length ≤ 16) :
    (s.setVFrom k bs).getV q =
      if hq : k ≤ q.val ∧ q.val < k + bs.length then bs[q.val - k]'(by omega) else s.getV q := by
  induction bs generalizing s k with
  | nil => simp [State.setVFrom]
  | cons b bs ih =>
    simp only [List.length_cons] at h
    have hk : k < 16 := by omega
    simp only [State.setVFrom, hk, dite_true]
    rw [ih _ _ (by omega), State.getV_setV]
    by_cases hq : k = q.val
    · subst hq
      simp
    · have hne : (⟨k, hk⟩ : Reg) ≠ q := fun e => hq (by rw [← e])
      by_cases hin : k + 1 ≤ q.val ∧ q.val < k + 1 + bs.length
      · have hin' : k ≤ q.val ∧ q.val < k + (bs.length + 1) := by omega
        have hsub : q.val - k = (q.val - (k + 1)) + 1 := by omega
        simp only [hin, hin', List.length_cons, dite_true, and_self]
        simp [hsub]
      · have hin' : ¬ (k ≤ q.val ∧ q.val < k + (b :: bs).length) := by
          simp only [List.length_cons]; omega
        rw [dif_neg hin, dif_neg hin', if_neg hne]

theorem State.regsUpTo_length (s : State) (x : Reg) : (s.regsUpTo x).length = x.val + 1 := by
  simp [State.regsUpTo]

theorem State.regsUpTo_get (s : State) (x r : Reg) (h : r.val < (s.regsUpTo x).length) :
    (s.regsUpTo x)[r.val] = s.getV r := by
  simp [State.regsUpTo, State.getV]

end Sys2Proof.Machine
end

