-- ==== Sys2Proof/Laws/Display.lean ====
section
/-! SUPPORT. Drawing: what the two loops of `DRW` do to each pixel and to the collision bit, said once
without the loops. No pixel is visited twice (R153 c), which is why the order of the loops does not show. -/

namespace Sys2Proof.Machine

open Sys2Proof

/-! ## One pixel -/

theorem FrameBuffer.pixel_flip (fb : FrameBuffer) (col : Fin 64) (row : Fin 32) (p : Nat) :
    FrameBuffer.pixel (FrameBuffer.flip fb col row) p =
      (FrameBuffer.pixel fb p ^^ decide (p = col.val + row.val * 64)) := by
  unfold FrameBuffer.pixel FrameBuffer.flip
  have hc := col.isLt
  have hr := row.isLt
  by_cases hp : p / 64 < 32
  · simp only [hp, dite_true, Vector.getElem_set]
    by_cases hrow : row.val = p / 64
    · rw [if_pos hrow]
      have hcol : (p % 64 = col.val) ↔ p = col.val + p / 64 * 64 := by omega
      have hlt : p % 64 < 64 := Nat.mod_lt _ (by decide)
      simp only [BitVec.getLsbD_xor, hrow]
      congr 1
      rw [BitVec.getLsbD_shiftLeft, BitVec.getLsbD_one]
      by_cases he : p % 64 = col.val
      · rw [decide_eq_true (hcol.1 he)]; simp [he]
      · rw [decide_eq_false (fun h => he (hcol.2 h))]
        simp only [hlt, decide_true, Bool.true_and]
        by_cases hl : p % 64 < col.val <;> simp [hl]; omega
    · rw [if_neg hrow]
      have hne : p ≠ col.val + row.val * 64 := by omega
      simp [hne]
  · have hne : p ≠ col.val + row.val * 64 := by omega
    simp [hp, hne]

@[simp] theorem FrameBuffer.pixel_clear (p : Nat) :
    FrameBuffer.pixel (Vector.replicate 32 0) p = false := by
  unfold FrameBuffer.pixel; split <;> simp

/-- Two frame buffers with the same pixels are the same. -/
theorem FrameBuffer.ext_pixel {a b : FrameBuffer}
    (h : ∀ p, FrameBuffer.pixel a p = FrameBuffer.pixel b p) : a = b := by
  apply Vector.ext
  intro r hr
  apply BitVec.eq_of_getLsbD_eq
  intro c hc
  have := h (r * 64 + c)
  unfold FrameBuffer.pixel at this
  have h1 : (r * 64 + c) / 64 = r := by omega
  have h2 : (r * 64 + c) % 64 = c := by omega
  simpa [h1, h2, hr] using this

/-! ## The pixels under a sprite -/

/-- The pixel of sprite row `r`, column `c`, for a sprite at `(vx, vy)` (R150). -/
def spritePos (vx vy r c : Nat) : Nat := (vx + c) % 64 + (vy + r) % 32 * 64

/-- A set bit of one of the sprite rows, the first of them being row `r`, lies on pixel `p`. -/
def Covered (vx vy r : Nat) (bs : List Byte) (p : Nat) : Prop :=
  ∃ k, ∃ h : k < bs.length, ∃ c < 8, bs[k].getLsbD (7 - c) = true ∧ p = spritePos vx vy (r + k) c

theorem covered_cons (vx vy r : Nat) (b : Byte) (bs : List Byte) (p : Nat) :
    Covered vx vy r (b :: bs) p ↔
      (∃ c < 8, b.getLsbD (7 - c) = true ∧ p = spritePos vx vy r c) ∨ Covered vx vy (r + 1) bs p := by
  constructor
  · rintro ⟨k, hk, c, hc, hb, hp⟩
    cases k with
    | zero => exact .inl ⟨c, hc, hb, hp⟩
    | succ k =>
      refine .inr ⟨k, by simpa using hk, c, hc, hb, ?_⟩
      rw [hp, show r + (k + 1) = r + 1 + k by omega]
  · rintro (⟨c, hc, hb, hp⟩ | ⟨k, hk, c, hc, hb, hp⟩)
    · exact ⟨0, by simp, c, hc, hb, hp⟩
    · refine ⟨k + 1, by simpa using hk, c, hc, hb, ?_⟩
      rw [hp, show r + (k + 1) = r + 1 + k by omega]

/-- The pixels of one row are distinct. -/
theorem spritePos_col_inj {vx vy r c d : Nat} (hc : c < 8) (hd : d < 8)
    (h : spritePos vx vy r c = spritePos vx vy r d) : c = d := by
  unfold spritePos at h; omega

/-- The pixels of two rows, fewer than 32 apart, are distinct. -/
theorem spritePos_row_ne {vx vy r k c d : Nat} (hk : k < 31) :
    spritePos vx vy r c ≠ spritePos vx vy (r + 1 + k) d := by
  unfold spritePos; omega

/-! ## The loops -/

/-- What drawing has done: every pixel in `cov` is inverted and no other; the collision bit is set when it
was, or when a pixel in `cov` was lit. -/
structure Drawn (cv cv' : Canvas) (cov : Nat → Prop) : Prop where
  inverted  : ∀ p, cov p → FrameBuffer.pixel cv'.1 p = !FrameBuffer.pixel cv.1 p
  untouched : ∀ p, ¬ cov p → FrameBuffer.pixel cv'.1 p = FrameBuffer.pixel cv.1 p
  collision : cv'.2 = true ↔ cv.2 = true ∨ ∃ p, cov p ∧ FrameBuffer.pixel cv.1 p = true

/-- Two drawings over pixels with none in common are one drawing over both. -/
theorem Drawn.trans {a b c : Canvas} {cov₁ cov₂ cov : Nat → Prop} (h₁ : Drawn a b cov₁)
    (h₂ : Drawn b c cov₂) (hor : ∀ p, cov p ↔ cov₁ p ∨ cov₂ p) (hdis : ∀ p, cov₁ p → ¬ cov₂ p) :
    Drawn a c cov where
  inverted p hp := by
    rcases (hor p).1 hp with h | h
    · rw [h₂.untouched p (hdis p h), h₁.inverted p h]
    · rw [h₂.inverted p h, h₁.untouched p (fun h' => hdis p h' h)]
  untouched p hp := by
    have := mt (hor p).2 hp
    rw [h₂.untouched p (fun h => this (.inr h)), h₁.untouched p (fun h => this (.inl h))]
  collision := by
    rw [h₂.collision, h₁.collision]
    constructor
    · rintro ((h | ⟨p, hp, hl⟩) | ⟨p, hp, hl⟩)
      · exact .inl h
      · exact .inr ⟨p, (hor p).2 (.inl hp), hl⟩
      · rw [h₁.untouched p (fun h' => hdis p h' hp)] at hl
        exact .inr ⟨p, (hor p).2 (.inr hp), hl⟩
    · rintro (h | ⟨p, hp, hl⟩)
      · exact .inl (.inl h)
      · rcases (hor p).1 hp with h | h
        · exact .inl (.inr ⟨p, h, hl⟩)
        · refine .inr ⟨p, h, ?_⟩
          rw [h₁.untouched p (fun h' => hdis p h' h), hl]

theorem Drawn.refl (cv : Canvas) {cov : Nat → Prop} (h : ∀ p, ¬ cov p) : Drawn cv cv cov where
  inverted p hp := absurd hp (h p)
  untouched _ _ := rfl
  collision := ⟨.inl, fun h' => h'.elim id fun ⟨p, hp, _⟩ => absurd hp (h p)⟩

theorem drawBit_drawn (col : Fin 64) (row : Fin 32) (bit : Bool) (cv : Canvas) :
    Drawn cv (drawBit col row bit cv) (fun p => bit = true ∧ p = col.val + row.val * 64) := by
  cases bit with
  | false => exact Drawn.refl _ (by simp)
  | true =>
    constructor
    · rintro p ⟨-, hp⟩
      simp [drawBit, FrameBuffer.pixel_flip, hp]
    · intro p hp
      have hne : p ≠ col.val + row.val * 64 := fun h => hp ⟨rfl, h⟩
      simp [drawBit, FrameBuffer.pixel_flip, hne]
    · simp [drawBit]

theorem drawCols_drawn (vx vy r : Nat) (b : Byte) (cv : Canvas) (m : Nat) (hm : m ≤ 8) :
    Drawn cv
      ((List.range m).foldl
        (fun acc c => drawBit (drawCol vx c) (drawRow vy r) (b.getLsbD (7 - c)) acc) cv)
      (fun p => ∃ c < m, b.getLsbD (7 - c) = true ∧ p = spritePos vx vy r c) := by
  induction m with
  | zero => exact Drawn.refl _ (by simp)
  | succ m ih =>
    rw [List.range_succ, List.foldl_append]
    refine (ih (by omega)).trans (drawBit_drawn _ _ _ _) (fun p => ?_) ?_
    · constructor
      · rintro ⟨c, hc, hb, hp⟩
        by_cases h : c < m
        · exact .inl ⟨c, h, hb, hp⟩
        · obtain rfl : c = m := by omega
          exact .inr ⟨hb, hp⟩
      · rintro (⟨c, hc, hb, hp⟩ | ⟨hb, hp⟩)
        · exact ⟨c, by omega, hb, hp⟩
        · exact ⟨m, by omega, hb, hp⟩
    · rintro p ⟨c, hc, -, hp⟩ ⟨-, hp'⟩
      have : c = m := spritePos_col_inj (by omega) (by omega) (hp.symm.trans hp')
      omega

/-- The whole sprite, at most 32 rows of it. -/
theorem drawBytes_drawn (vx vy r : Nat) (bs : List Byte) (cv : Canvas) (h : bs.length ≤ 32) :
    Drawn cv (drawBytes vx vy r bs cv) (Covered vx vy r bs) := by
  induction bs generalizing r cv with
  | nil => exact Drawn.refl _ (by rintro p ⟨k, hk, -⟩; simp at hk)
  | cons b bs ih =>
    simp only [List.length_cons] at h
    refine (drawCols_drawn vx vy r b cv 8 (by omega)).trans (ih (r + 1) _ (by omega))
      (covered_cons vx vy r b bs) ?_
    rintro p ⟨c, hc, -, hp⟩ ⟨k, hk, d, hd, -, hp'⟩
    exact spritePos_row_ne (by omega) (hp.symm.trans hp')

/-! ## The state after a sprite -/

theorem State.spriteRows_ok (s : State) (n : Nibble) (h : n.val = 0 ∨ s.base + n.val ≤ 4096) :
    s.spriteRows n = .ok (s.bytesAt s.base n.val) := by
  unfold State.spriteRows
  split
  · rename_i hn; simp [hn, State.bytesAt]
  · rename_i hn; unfold State.memRead boundError; rw [if_neg (by omega)]

theorem State.spriteRows_congr {s t : State} (hm : t.mem = s.mem) (hc : t.cfg = s.cfg) (hi : t.i = s.i)
    (n : Nibble) : t.spriteRows n = s.spriteRows n := by
  simp only [State.spriteRows, State.base, hi, State.memRead_congr hm hc]

theorem State.spriteRows_error (s : State) (n : Nibble) (hn : n.val ≠ 0)
    (h : 4096 < s.base + n.val) : s.spriteRows n = .error (max s.base 4096) := by
  unfold State.spriteRows
  rw [if_neg hn]; unfold State.memRead boundError; rw [if_pos (by omega)]

@[simp] theorem State.drawSprite_fbDirty (s : State) (x y : Reg) (rows : List Byte) :
    (s.drawSprite x y rows).fbDirty = true := rfl

theorem State.drawSprite_fb (s : State) (x y : Reg) (rows : List Byte) :
    (s.drawSprite x y rows).fb =
      (drawBytes (s.getV x).toNat (s.getV y).toNat 0 rows (s.fb, false)).1 := rfl

theorem State.drawSprite_getV (s : State) (x y r : Reg) (rows : List Byte) :
    (s.drawSprite x y rows).getV r =
      if vF = r then
        flagByte (drawBytes (s.getV x).toNat (s.getV y).toNat 0 rows (s.fb, false)).2
      else s.getV r := by
  unfold State.drawSprite
  rw [State.getV_setV]
  rfl

end Sys2Proof.Machine
end

