-- ==== Sys2Proof/Laws/Step.lean ====
section
/-! SUPPORT. What one execution and one step can do, said once: an instruction either completes and leaves the
sequencer's and the host's fields alone, or takes a fault and changes nothing else, or (`RET` in a state no
run reaches) stops; and a step is a tick, a frame end, a host event, or waiting. -/

namespace Sys2Proof.Machine

open Sys2Proof

/-! ## Small shared operations -/

@[simp] theorem State.skipIf_pc (s : State) (c : Bool) :
    (s.skipIf c).pc = if c then s.pc + 2 else s.pc := by cases c <;> rfl

/-- Taking a fault from a state with none latched: the whole next state (R190, R191, R199). -/
theorem raise_eq (i : Instr) (kind : FaultKind) (addr : Nat) {s : State} (h : s.fault = none) :
    raise i kind addr s =
      .next { s with
        fault := some { kind := kind, addr := addr, word := some (encode i), pc0 := s.pc - 2 }
        run := .idle
        frame := none } := by
  simp [raise, State.takeFault, h]

theorem raiseFetch_eq (addr : Nat) {s : State} (h : s.fault = none) :
    raiseFetch addr s =
      .next { s with
        fault := some { kind := .fetchOob, addr := addr, word := none, pc0 := s.pc }
        run := .idle
        frame := none } := by
  simp [raiseFetch, State.takeFault, h]

/-- The fields no completing instruction touches. -/
structure SameControl (s t : State) : Prop where
  run        : t.run = s.run
  toneActive : t.toneActive = s.toneActive
  fault      : t.fault = s.fault
  keys       : t.keys = s.keys
  rnd        : t.rnd = s.rnd
  frame      : t.frame = s.frame
  inbox      : t.inbox = s.inbox
  cfg        : t.cfg = s.cfg

/-- The three ways an execution ends. -/
inductive ExecEnds (i : Instr) (s : State) : Result → Prop where
  | completes {t : State} (h : SameControl s t) : ExecEnds i s (.next t)
  | faults (kind : FaultKind) (addr : Nat) (hk : kind ≠ .fetchOob) :
      ExecEnds i s (raise i kind addr s)
  | stops (hi : i = .ret) (hsp : 16 ≤ s.sp.toNat) : ExecEnds i s (.fault (.stackSlotAbsent s.sp.toNat))

theorem execRet_ends (s : State) : ExecEnds .ret s (execRet s) := by
  unfold execRet
  split
  · exact .faults _ _ (by decide)
  · split
    · exact .completes ⟨rfl, rfl, rfl, rfl, rfl, rfl, rfl, rfl⟩
    · exact .stops rfl (by omega)

theorem execCall_ends (addr : Addr12) (s : State) : ExecEnds (.call addr) s (execCall addr s) := by
  unfold execCall
  split
  · exact .completes ⟨rfl, rfl, rfl, rfl, rfl, rfl, rfl, rfl⟩
  · exact .faults _ _ (by decide)

theorem skipIf_sameControl (s : State) (c : Bool) : SameControl s (s.skipIf c) := by
  constructor <;> simp

theorem keySkip_ends (i : Instr) (x : Reg) (down : Bool) (s : State) :
    ExecEnds i s (keySkip i x down s) := by
  unfold keySkip
  split
  · exact .faults _ _ (by decide)
  · exact .completes (skipIf_sameControl _ _)

theorem memWrite_ends (i : Instr) (s : State) (a : Nat) (bs : List Byte) :
    ExecEnds i s (match s.memWrite a bs with
      | .ok t => .next t
      | .error bad => raise i .memWriteOob bad s) := by
  unfold State.memWrite
  cases boundError a bs.length with
  | none => exact .completes ⟨rfl, rfl, rfl, rfl, rfl, rfl, rfl, rfl⟩
  | some bad => exact .faults _ _ (by decide)

theorem execLdRegs_ends (x : Reg) (s : State) : ExecEnds (.ldRegs x) s (execLdRegs x s) := by
  unfold execLdRegs State.memRead
  cases boundError s.base (x.val + 1) with
  | none => exact .completes (by constructor <;> simp)
  | some bad => exact .faults _ _ (by decide)

theorem execDrw_ends (x y : Reg) (n : Nibble) (s : State) :
    ExecEnds (.drw x y n) s (execDrw x y n s) := by
  unfold execDrw
  cases s.spriteRows n with
  | ok rows => exact .completes (by constructor <;> simp)
  | error bad => exact .faults _ _ (by decide)

theorem execLdVxK_ends (x : Reg) (s : State) : ExecEnds (.ldVxK x) s (execLdVxK x s) := by
  unfold execLdVxK
  refine .completes ?_
  split <;> constructor <;> rfl

/-- How every instruction ends. -/
theorem exec_ends (i : Instr) (s : State) : ExecEnds i s (exec i s) := by
  cases i with
  | ret => exact execRet_ends s
  | call addr => exact execCall_ends addr s
  | drw x y n => exact execDrw_ends x y n s
  | skp x => exact keySkip_ends _ x true s
  | sknp x => exact keySkip_ends _ x false s
  | ldVxK x => exact execLdVxK_ends x s
  | ldB x => exact memWrite_ends _ s _ _
  | stRegs x => exact memWrite_ends _ s _ _
  | ldRegs x => exact execLdRegs_ends x s
  | seImm x kk => exact .completes (skipIf_sameControl _ _)
  | sneImm x kk => exact .completes (skipIf_sameControl _ _)
  | seReg x y n => exact .completes (skipIf_sameControl _ _)
  | sneReg x y n => exact .completes (skipIf_sameControl _ _)
  | cls | sys _ | jp _ | ldImm _ _ | addImm _ _ | ldReg _ _ | orReg _ _ | andReg _ _ | xorReg _ _
  | addReg _ _ | subReg _ _ | shr _ _ | subn _ _ | shl _ _ | ldI _ | jpV0 _ | rnd _ _ | ldVxDT _
  | ldDTVx _ | ldSTVx _ | addI _ | ldF _ | unknown _ =>
    exact .completes ⟨rfl, rfl, rfl, rfl, rfl, rfl, rfl, rfl⟩

/-- An execution that answers a next state has completed, or has taken a fault. -/
theorem exec_next_cases {i : Instr} {s t : State} (h : exec i s = .next t) :
    SameControl s t ∨
    ∃ kind addr, kind ≠ .fetchOob ∧
      t = s.takeFault { kind := kind, addr := addr, word := some (encode i), pc0 := s.pc - 2 } := by
  have ends := exec_ends i s
  rw [h] at ends
  generalize hr : (Host.Outcome.next t : Result) = r at ends
  cases ends with
  | completes hc => cases hr; exact .inl hc
  | faults kind addr hk => cases hr; exact .inr ⟨kind, addr, hk, rfl⟩
  | stops => cases hr

/-- With a legal `SP` (R24) an execution never stops. -/
theorem exec_next_of_legalSP (i : Instr) {s : State} (h : s.sp.toNat ≤ 15) : ∃ t, exec i s = .next t := by
  have ends := exec_ends i s
  generalize exec i s = r at ends ⊢
  cases ends with
  | completes => exact ⟨_, rfl⟩
  | faults => exact ⟨_, rfl⟩
  | stops _ hsp => omega

/-! ## One step -/

/-- A run of one step more than `k`, when the first answers a next state. -/
theorem core_run_succ {s t : State} (k : Nat) (h : step s = .next t) :
    Host.Core.run Sys2Proof.core (k + 1) s = Host.Core.run Sys2Proof.core k t := by
  have h' : Sys2Proof.core.step s = .next t := h
  simp only [Host.Core.run, h']

/-- The invariant says nothing of the host's queue. -/
theorem State.Inv.withInbox {s : State} (h : s.Inv) (box : List HostEvent) :
    ({ s with inbox := box } : State).Inv :=
  ⟨h.memWf, h.spLegal, h.pcBound, h.returns, h.bottomSlot, h.faultHalts, h.faultWord, h.frameRuns,
    h.frameShort, h.ticksValid⟩

/-- A tick that is due is what the step does. -/
theorem step_of_tickDue {s : State} {input : TickInput} {rest : List TickInput}
    (h : s.TickDue input rest) : step s = tick input rest s := by
  obtain ⟨hr, hf⟩ := h
  simp [step, sequencerStep, hr, hf]

/-- A frame with no tick left ends. -/
theorem step_of_frameEnd {s : State} (hr : s.run = .running) (hf : s.frame = some []) :
    step s = .next s.frameEnd := by
  simp [step, sequencerStep, hr, hf]

/-- Idle or between frames, the step is the host's turn. -/
theorem step_of_hostTurn {s : State} (h : s.run = .idle ∨ s.frame = none) : step s = hostTurn s := by
  unfold step sequencerStep
  rcases h with h | h
  · rw [h]
  · rw [h]; cases s.run <;> rfl

theorem step_of_takesHostEvent {s : State} {e : HostEvent} {rest : List HostEvent}
    (h : s.TakesHostEvent e rest) : step s = hostEvent e { s with inbox := rest } := by
  rw [step_of_hostTurn h.1, hostTurn, h.2]

/-- What a step is. -/
theorem step_is (s : State) :
    (∃ input rest, s.TickDue input rest ∧ step s = tick input rest s) ∨
    (s.run = .running ∧ s.frame = some [] ∧ step s = .next s.frameEnd) ∨
    (∃ e rest, s.TakesHostEvent e rest ∧ step s = hostEvent e { s with inbox := rest }) ∨
    ((s.run = .idle ∨ s.frame = none) ∧ s.inbox = [] ∧ step s = .next s) := by
  by_cases h : s.run = .idle ∨ s.frame = none
  · cases hb : s.inbox with
    | nil => exact .inr (.inr (.inr ⟨h, rfl, by rw [step_of_hostTurn h, hostTurn, hb]⟩))
    | cons e rest => exact .inr (.inr (.inl ⟨e, rest, ⟨h, hb⟩, step_of_takesHostEvent ⟨h, hb⟩⟩))
  · have hr : s.run = .running := by
      cases hr : s.run with
      | idle => exact absurd (.inl hr) h
      | running => rfl
    cases hf : s.frame with
    | none => exact absurd (.inr hf) h
    | some l =>
      cases l with
      | nil => exact .inr (.inl ⟨hr, rfl, step_of_frameEnd hr hf⟩)
      | cons input rest => exact .inl ⟨input, rest, ⟨hr, hf⟩, step_of_tickDue ⟨hr, hf⟩⟩

/-- R171: a fetch inside the memory. -/
theorem State.fetch_inside (s : State) (h : s.pc.toNat ≤ 4094) :
    s.fetch = .ok (s.wordAt s.pc.toNat) := by
  unfold State.fetch; rw [boundError_none.2 (by omega)]

/-- R171: a fetch past the end. -/
theorem State.fetch_outside (s : State) (h : 4094 < s.pc.toNat) :
    s.fetch = .error (max s.pc.toNat 4096) := by
  unfold State.fetch; rw [boundError_some (by omega)]

/-- A tick whose fetch succeeds runs the decoded instruction. -/
theorem tick_inside (input : TickInput) (rest : List TickInput) (s : State) (h : s.pc.toNat ≤ 4094) :
    tick input rest s =
      exec (decode s.cfg.strictXY0 (s.wordAt s.pc.toNat))
        ((s.beginTick input rest).setPC (s.pc + 2)) := by
  unfold tick
  simp only
  rw [State.fetch_inside _ (by simpa using h)]
  rfl

/-- A tick whose fetch fails takes the fetch fault. -/
theorem tick_outside (input : TickInput) (rest : List TickInput) (s : State) (h : 4094 < s.pc.toNat) :
    tick input rest s = raiseFetch (max s.pc.toNat 4096) (s.beginTick input rest) := by
  unfold tick
  simp only
  rw [State.fetch_outside _ (by simpa using h)]
  rfl

end Sys2Proof.Machine
end

