-- ==== Sys2Proof/Laws/Frame.lean ====
section
/-! SUPPORT. Frames: what each named operation keeps, in the terms of `KeepsExcept`. -/

namespace Sys2Proof.Machine

open Sys2Proof

/-! ## Weakening and doing nothing -/

theorem KeepsExcept.refl {W : Part → Prop} (s : State) : KeepsExcept W s s := by
  intro p _; cases p <;> rfl

theorem KeepsExcept.mono {W W' : Part → Prop} {s t : State} (h : KeepsExcept W s t)
    (hw : ∀ p, W p → W' p) : KeepsExcept W' s t :=
  fun p hp => h p (fun h' => hp (hw p h'))

/-! ## Operations on registers -/

theorem State.setPC_keeps (s : State) (a : Word) :
    KeepsExcept (fun p => p = .pc) s (s.setPC a) := by
  intro p hp; cases p <;> first | rfl | exact absurd rfl hp

theorem State.setI_keeps (s : State) (a : Word) :
    KeepsExcept (fun p => p = .i) s (s.setI a) := by
  intro p hp; cases p <;> first | rfl | exact absurd rfl hp

theorem State.setDT_keeps (s : State) (b : Byte) :
    KeepsExcept (fun p => p = .dt) s (s.setDT b) := by
  intro p hp; cases p <;> first | rfl | exact absurd rfl hp

theorem State.setST_keeps (s : State) (b : Byte) :
    KeepsExcept (fun p => p = .st) s (s.setST b) := by
  intro p hp; cases p <;> first | rfl | exact absurd rfl hp

theorem State.emit_keeps (s : State) (o : Output) :
    KeepsExcept (fun p => p = .out) s (s.emit o) := by
  intro p hp; cases p <;> first | rfl | exact absurd rfl hp

theorem State.setV_keeps (s : State) (x : Reg) (b : Byte) :
    KeepsExcept (fun p => p = .v x) s (s.setV x b) := by
  intro p hp
  cases p with
  | v r => exact s.getV_setV_other b (fun h => hp (by rw [h]))
  | _ => rfl

theorem State.setFlagThenV_keeps (s : State) (flag : Byte) (x : Reg) (b : Byte) :
    KeepsExcept (fun p => p = .v x ∨ p = .v 15) s (s.setFlagThenV flag x b) := by
  intro p hp
  cases p with
  | v r =>
    simp only [not_or] at hp
    show (s.setFlagThenV flag x b).getV r = _
    rw [State.getV_setFlagThenV, if_neg (fun h => hp.1 (by rw [h])),
      if_neg (fun h => hp.2 (by rw [← h]))]
  | _ => rfl

theorem State.skipIf_keeps (s : State) (c : Bool) :
    KeepsExcept (fun p => p = .pc) s (s.skipIf c) := by
  cases c with
  | false => exact KeepsExcept.refl s
  | true => exact s.setPC_keeps _

theorem State.pushAt_keeps (s : State) (k : Fin 16) (a : Word) :
    KeepsExcept (fun p => p = .sp ∨ p = .stack k) s (s.pushAt k a) := by
  intro p hp
  cases p with
  | sp => exact absurd (.inl rfl) hp
  | stack j =>
    show (s.stack.set k.val a)[j.val] = _
    rw [Vector.getElem_set, if_neg]
    intro e
    exact hp (.inr (by rw [Fin.ext e]))
  | _ => rfl

theorem State.popFrom_keeps (s : State) (k : Fin 16) :
    KeepsExcept (fun p => p = .pc ∨ p = .sp) s (s.popFrom k) := by
  intro p hp; cases p <;> first | rfl | simp at hp

/-! ## Memory, the block load, the sprite -/

theorem State.writeBytes_keeps (s : State) (a : Nat) (bs : List Byte) :
    KeepsExcept (fun p => ∃ c, p = .mem c ∧ a ≤ c ∧ c < a + bs.length) s (s.writeBytes a bs) := by
  intro p hp
  cases p with
  | mem c =>
    apply State.readByte_writeBytes_outside
    by_contra h
    exact hp ⟨c, rfl, by omega, by omega⟩
  | _ => rfl

theorem State.setVFrom_keeps (s : State) (k : Nat) (bs : List Byte) (h : k + bs.length ≤ 16) :
    KeepsExcept (fun p => ∃ r : Reg, p = .v r ∧ k ≤ r.val ∧ r.val < k + bs.length) s
      (s.setVFrom k bs) := by
  intro p hp
  cases p with
  | v r =>
    show (s.setVFrom k bs).getV r = _
    rw [State.getV_setVFrom _ _ _ _ h, dif_neg]
    intro hr
    exact hp ⟨r, rfl, hr⟩
  | _ => simp [Part.Same, State.readByte, State.pixel]

theorem State.drawSprite_keeps (s : State) (x y : Reg) (rows : List Byte) (h : rows.length ≤ 32) :
    KeepsExcept (fun p => p = .v 15 ∨ p = .fbDirty ∨
      ∃ q, p = .fb q ∧ Covered (s.getV x).toNat (s.getV y).toNat 0 rows q) s
      (s.drawSprite x y rows) := by
  intro p hp
  cases p with
  | v r =>
    show (s.drawSprite x y rows).getV r = _
    rw [State.drawSprite_getV, if_neg]
    intro e
    exact hp (.inl (by rw [← e]))
  | fb q =>
    exact (drawBytes_drawn _ _ 0 rows (s.fb, false) h).untouched q
      (fun hc => hp (.inr (.inr ⟨q, rfl, hc⟩)))
  | fbDirty => exact absurd (.inr (.inl rfl)) hp
  | _ => rfl

/-! ## Taking a fault -/

theorem State.takeFault_keeps (s : State) (r : FaultRecord) :
    KeepsExcept (fun p => p = .fault ∨ p = .run ∨ p = .frame) s (s.takeFault r) := by
  intro p hp; cases p <;> first | rfl | simp at hp

end Sys2Proof.Machine
end

