-- ==== Sys2Proof/Laws/PerInstr.lean ====
section
/-! SUPPORT. Per-instruction facts about the syntax. Family `TableRow`: the word of every instruction has,
under the mask of its row in the table of R85, the pattern of that row. -/

namespace Sys2Proof.Laws

open Sys2Proof

/-! ## Masks on laid out words -/

theorem and_append_fields {m n : Nat} (a c : BitVec m) (b d : BitVec n) :
    (a ++ b) &&& (c ++ d) = (a &&& c) ++ (b &&& d) := by
  apply BitVec.eq_of_getLsbD_eq; intro i _
  simp only [BitVec.getLsbD_and, BitVec.getLsbD_append]
  split <;> rfl

theorem and_ones {n : Nat} (a : BitVec n) : a &&& BitVec.allOnes n = a := by simp

theorem packNNN_mask (m : BitVec 4) (a : Addr12) : packNNN m a &&& 0xF000#16 = packNNN m 0 := by
  show (m ++ a) &&& (BitVec.allOnes 4 ++ 0#12) = m ++ 0#12
  rw [and_append_fields, and_ones, BitVec.and_zero]

theorem packXKK_mask (m : BitVec 4) (x : Reg) (kk : Byte) :
    packXKK m x kk &&& 0xF0FF#16 = packXKK m 0 kk := by
  show (m ++ nibbleBits x ++ kk) &&& (BitVec.allOnes 4 ++ 0#4 ++ BitVec.allOnes 8) = m ++ 0#4 ++ kk
  simp only [and_append_fields, and_ones, BitVec.and_zero]

theorem packXKK_maskF000 (m : BitVec 4) (x : Reg) (kk : Byte) :
    packXKK m x kk &&& 0xF000#16 = packXKK m 0 0 := by
  show (m ++ nibbleBits x ++ kk) &&& (BitVec.allOnes 4 ++ 0#4 ++ 0#8) = m ++ 0#4 ++ 0#8
  simp only [and_append_fields, and_ones, BitVec.and_zero]

theorem packXYN_mask (m : BitVec 4) (x y : Reg) (n : Nibble) :
    packXYN m x y n &&& 0xF00F#16 = packXYN m 0 0 n := by
  show (m ++ nibbleBits x ++ nibbleBits y ++ nibbleBits n) &&&
    (BitVec.allOnes 4 ++ 0#4 ++ 0#4 ++ BitVec.allOnes 4) = m ++ 0#4 ++ 0#4 ++ nibbleBits n
  simp only [and_append_fields, and_ones, BitVec.and_zero]

theorem packXYN_maskF000 (m : BitVec 4) (x y : Reg) (n : Nibble) :
    packXYN m x y n &&& 0xF000#16 = packXYN m 0 0 0 := by
  show (m ++ nibbleBits x ++ nibbleBits y ++ nibbleBits n) &&&
    (BitVec.allOnes 4 ++ 0#4 ++ 0#4 ++ 0#4) = m ++ 0#4 ++ 0#4 ++ 0#4
  simp only [and_append_fields, and_ones, BitVec.and_zero]

/-! ## The family -/

/-- The row of the table with the instruction's number. -/
def TableRow.rowOf (i : Instr) : Option OpcodeRow := opcodeRows.find? (fun r => r.row == i.row)

/-- The instruction's word matches its own row of the table. -/
def TableRow.Statement (i : Instr) : Prop :=
  ∃ r, TableRow.rowOf i = some r ∧ encode i &&& r.mask = r.pattern

theorem TableRow.cls : TableRow.Statement .cls := ⟨_, rfl, rfl⟩
theorem TableRow.ret : TableRow.Statement .ret := ⟨_, rfl, rfl⟩
theorem TableRow.sys (addr : Addr12) : TableRow.Statement (.sys addr) := ⟨_, rfl, packNNN_mask _ _⟩
theorem TableRow.jp (addr : Addr12) : TableRow.Statement (.jp addr) := ⟨_, rfl, packNNN_mask _ _⟩
theorem TableRow.call (addr : Addr12) : TableRow.Statement (.call addr) := ⟨_, rfl, packNNN_mask _ _⟩
theorem TableRow.seImm (x : Reg) (kk : Byte) : TableRow.Statement (.seImm x kk) := ⟨_, rfl, packXKK_maskF000 _ _ _⟩
theorem TableRow.sneImm (x : Reg) (kk : Byte) : TableRow.Statement (.sneImm x kk) := ⟨_, rfl, packXKK_maskF000 _ _ _⟩
theorem TableRow.seReg (x y : Reg) (n : Nibble) : TableRow.Statement (.seReg x y n) := ⟨_, rfl, packXYN_maskF000 _ _ _ _⟩
theorem TableRow.sneReg (x y : Reg) (n : Nibble) : TableRow.Statement (.sneReg x y n) := ⟨_, rfl, packXYN_maskF000 _ _ _ _⟩
theorem TableRow.ldImm (x : Reg) (kk : Byte) : TableRow.Statement (.ldImm x kk) := ⟨_, rfl, packXKK_maskF000 _ _ _⟩
theorem TableRow.addImm (x : Reg) (kk : Byte) : TableRow.Statement (.addImm x kk) := ⟨_, rfl, packXKK_maskF000 _ _ _⟩
theorem TableRow.ldReg (x y : Reg) : TableRow.Statement (.ldReg x y) := ⟨_, rfl, packXYN_mask _ _ _ _⟩
theorem TableRow.orReg (x y : Reg) : TableRow.Statement (.orReg x y) := ⟨_, rfl, packXYN_mask _ _ _ _⟩
theorem TableRow.andReg (x y : Reg) : TableRow.Statement (.andReg x y) := ⟨_, rfl, packXYN_mask _ _ _ _⟩
theorem TableRow.xorReg (x y : Reg) : TableRow.Statement (.xorReg x y) := ⟨_, rfl, packXYN_mask _ _ _ _⟩
theorem TableRow.addReg (x y : Reg) : TableRow.Statement (.addReg x y) := ⟨_, rfl, packXYN_mask _ _ _ _⟩
theorem TableRow.subReg (x y : Reg) : TableRow.Statement (.subReg x y) := ⟨_, rfl, packXYN_mask _ _ _ _⟩
theorem TableRow.shr (x y : Reg) : TableRow.Statement (.shr x y) := ⟨_, rfl, packXYN_mask _ _ _ _⟩
theorem TableRow.subn (x y : Reg) : TableRow.Statement (.subn x y) := ⟨_, rfl, packXYN_mask _ _ _ _⟩
theorem TableRow.shl (x y : Reg) : TableRow.Statement (.shl x y) := ⟨_, rfl, packXYN_mask _ _ _ _⟩
theorem TableRow.ldI (addr : Addr12) : TableRow.Statement (.ldI addr) := ⟨_, rfl, packNNN_mask _ _⟩
theorem TableRow.jpV0 (addr : Addr12) : TableRow.Statement (.jpV0 addr) := ⟨_, rfl, packNNN_mask _ _⟩
theorem TableRow.rnd (x : Reg) (kk : Byte) : TableRow.Statement (.rnd x kk) := ⟨_, rfl, packXKK_maskF000 _ _ _⟩
theorem TableRow.drw (x y : Reg) (n : Nibble) : TableRow.Statement (.drw x y n) := ⟨_, rfl, packXYN_maskF000 _ _ _ _⟩
theorem TableRow.skp (x : Reg) : TableRow.Statement (.skp x) := ⟨_, rfl, packXKK_mask _ _ _⟩
theorem TableRow.sknp (x : Reg) : TableRow.Statement (.sknp x) := ⟨_, rfl, packXKK_mask _ _ _⟩
theorem TableRow.ldVxDT (x : Reg) : TableRow.Statement (.ldVxDT x) := ⟨_, rfl, packXKK_mask _ _ _⟩
theorem TableRow.ldDTVx (x : Reg) : TableRow.Statement (.ldDTVx x) := ⟨_, rfl, packXKK_mask _ _ _⟩
theorem TableRow.ldSTVx (x : Reg) : TableRow.Statement (.ldSTVx x) := ⟨_, rfl, packXKK_mask _ _ _⟩
theorem TableRow.ldVxK (x : Reg) : TableRow.Statement (.ldVxK x) := ⟨_, rfl, packXKK_mask _ _ _⟩
theorem TableRow.addI (x : Reg) : TableRow.Statement (.addI x) := ⟨_, rfl, packXKK_mask _ _ _⟩
theorem TableRow.ldF (x : Reg) : TableRow.Statement (.ldF x) := ⟨_, rfl, packXKK_mask _ _ _⟩
theorem TableRow.ldB (x : Reg) : TableRow.Statement (.ldB x) := ⟨_, rfl, packXKK_mask _ _ _⟩
theorem TableRow.stRegs (x : Reg) : TableRow.Statement (.stRegs x) := ⟨_, rfl, packXKK_mask _ _ _⟩
theorem TableRow.ldRegs (x : Reg) : TableRow.Statement (.ldRegs x) := ⟨_, rfl, packXKK_mask _ _ _⟩
theorem TableRow.unknown (word : Word) : TableRow.Statement (.unknown word) := ⟨_, rfl, BitVec.and_zero⟩

end Sys2Proof.Laws
end

