-- ==== Sys2Proof/Tests/Slice0.lean ====
section
/-! SUPPORT. The model's own tests. Expected values are those of spec/95_test_vectors.md (the vector is
named), never the model's own answers. Then, for every obligation that has hypotheses, states and operands
that meet them, at the boundaries of each clause. -/

open Sys2Proof Sys2Proof.Machine Sys2Proof.Claims

namespace Sys2Proof.Tests

/-! ## Helpers -/

/-- The launch state (R228) inside a frame with one tick left, which has the given inputs, and with the
given word at 0x200. -/
def readyWith (input : TickInput) (w : Word) : State :=
  { State.reset with run := .running, frame := some [input] }.writeBytes 512 (bytesOfWord w)

/-- The same with no key down and the random byte 0. -/
def ready (w : Word) : State := readyWith ⟨0, 0⟩ w

/-- The result is a next state with this property. -/
def nextHas (r : Result) (f : State → Bool) : Bool :=
  match r with
  | .next t => f t
  | .fault _ => false
  | .refused _ => false

/-- One step of the state is a next state with this property. -/
def after (s : State) (f : State → Bool) : Bool := nextHas (step s) f

/-- The record of a halted state. -/
def haltedWith (kind : FaultKind) (addr : Nat) (word : Option Word) (pc0 : Word) (t : State) : Bool :=
  t.fault == some { kind := kind, addr := addr, word := word, pc0 := pc0 } && t.run == .idle &&
    t.frame == none

/-- An Idle state with this event waiting. -/
def waiting (e : HostEvent) : State := { State.reset with inbox := [e] }

/-- A Running state between frames with this event waiting. -/
def waitingRunning (e : HostEvent) : State := { State.reset with run := .running, inbox := [e] }

/-- An Idle state with a fault latched, as vector T172 leaves it. -/
def faulted : State :=
  { State.reset with
    fault := some { kind := .stackUnderflow, addr := 0, word := some 0x00EE, pc0 := 0x200 }
    pc := 0x202 }

/-- At the end of a frame, with these timers and this dirty mark. -/
def frameOver (dt st : Byte) (dirty : Bool) : State :=
  { State.reset with run := .running, frame := some [], dt := dt, st := st, fbDirty := dirty }

/-! ## WellFormed: one ill-formed term for each check -/

/-- R86: the two fixed words of family 0 are not `SYS`. -/
theorem test_wf_refuses_sys_0E0 : (Instr.sys 0x0E0).wellFormed false = false := by decide
theorem test_wf_refuses_sys_0EE : (Instr.sys 0x0EE).wellFormed false = false := by decide

/-- R88: under `STRICT_XY0` the ignored nibble is 0. -/
theorem test_wf_refuses_seReg_nibble : (Instr.seReg 1 2 7).wellFormed true = false := by decide
theorem test_wf_refuses_sneReg_nibble : (Instr.sneReg 1 2 15).wellFormed true = false := by decide

/-- R87, R89, R90, R91: a defined word is not `Unknown`, family by family. -/
theorem test_wf_refuses_defined_unknown :
    (Instr.unknown 0x8124).wellFormed false = false ∧ (Instr.unknown 0xE39E).wellFormed false = false ∧
    (Instr.unknown 0xF365).wellFormed false = false ∧ (Instr.unknown 0x5127).wellFormed false = false ∧
    (Instr.unknown 0x9120).wellFormed true = false ∧ (Instr.unknown 0x1ABC).wellFormed true = false := by
  decide

/-! ## Decode: a word of every constructor, written out from the patterns of R85 (vectors T2) -/

theorem test_decode_family0 :
    decode false 0b0000_0000_1110_0000 = .cls ∧ decode false 0b0000_0000_1110_1110 = .ret ∧
    decode false 0b0000_0001_0010_0011 = .sys 0x123 := by decide

theorem test_decode_jumps :
    decode false 0b0001_1010_1011_1100 = .jp 0xABC ∧ decode false 0b0010_0011_0000_0000 = .call 0x300 ∧
    decode false 0b1010_0010_1111_0000 = .ldI 0x2F0 ∧ decode false 0b1011_0010_0001_0000 = .jpV0 0x210 := by
  decide

theorem test_decode_immediates :
    decode false 0b0011_0011_0100_0010 = .seImm 3 0x42 ∧
    decode false 0b0100_0011_0100_0010 = .sneImm 3 0x42 ∧
    decode false 0b0110_1010_1111_1111 = .ldImm 10 0xFF ∧
    decode false 0b0111_1010_0000_0001 = .addImm 10 1 ∧
    decode false 0b1100_0011_0000_1111 = .rnd 3 0x0F := by decide

theorem test_decode_families_5_and_9 :
    decode true 0b0101_0001_0010_0000 = .seReg 1 2 0 ∧ decode true 0b1001_0001_0010_0000 = .sneReg 1 2 0 ∧
    decode false 0x5127 = .seReg 1 2 7 ∧ decode false 0x912F = .sneReg 1 2 15 ∧
    decode true 0x912F = .unknown 0x912F := by decide

theorem test_decode_family8 :
    decode false 0b1000_0001_0010_0000 = .ldReg 1 2 ∧ decode false 0b1000_0001_0010_0001 = .orReg 1 2 ∧
    decode false 0b1000_0001_0010_0010 = .andReg 1 2 ∧ decode false 0b1000_0001_0010_0011 = .xorReg 1 2 ∧
    decode false 0b1000_0001_0010_0100 = .addReg 1 2 ∧ decode false 0b1000_0001_0010_0101 = .subReg 1 2 ∧
    decode false 0b1000_0001_0010_0110 = .shr 1 2 ∧ decode false 0b1000_0001_0010_0111 = .subn 1 2 ∧
    decode false 0b1000_0001_0010_1110 = .shl 1 2 := by decide

theorem test_decode_display_and_keys :
    decode false 0b1101_0001_0010_0101 = .drw 1 2 5 ∧ decode false 0b1110_0011_1001_1110 = .skp 3 ∧
    decode false 0b1110_0011_1010_0001 = .sknp 3 := by decide

theorem test_decode_familyF :
    decode false 0b1111_0011_0000_0111 = .ldVxDT 3 ∧ decode false 0b1111_0011_0000_1010 = .ldVxK 3 ∧
    decode false 0b1111_0011_0001_0101 = .ldDTVx 3 ∧ decode false 0b1111_0011_0001_1000 = .ldSTVx 3 ∧
    decode false 0b1111_0011_0001_1110 = .addI 3 ∧ decode false 0b1111_0011_0010_1001 = .ldF 3 ∧
    decode false 0b1111_0011_0011_0011 = .ldB 3 ∧ decode false 0b1111_0011_0101_0101 = .stRegs 3 ∧
    decode false 0b1111_0011_0110_0101 = .ldRegs 3 := by decide

theorem test_decode_unknown :
    decode false 0x8128 = .unknown 0x8128 ∧ decode false 0x812F = .unknown 0x812F ∧
    decode false 0xE39F = .unknown 0xE39F ∧ decode false 0xF185 = .unknown 0xF185 ∧
    decode false 0xFFFF = .unknown 0xFFFF := by decide

/-- R57: the byte at the lower address is the high one; a single byte is no instruction. -/
theorem test_decode_bytes :
    decodeBytes false [0xA2, 0xF0, 0x11] = .ok (.ldI 0x2F0, [0x11]) ∧
    (∃ e, decodeBytes false [0xA2] = .error e) := ⟨by decide, _, rfl⟩

theorem test_decodeTableWord : decodeTableWord 16 0xD125 = some (.drw 1 2 5) := by decide

/-! ## One step of every instruction -/

/-- T10, T11. -/
theorem test_sys : after (ready 0x0123) (fun t => t.pc == 0x202 && t.run == .running) = true := by decide

/-- T12. -/
theorem test_jp : after (ready 0x1ABC) (fun t => t.pc == 0xABC) = true := by decide

/-- T16. -/
theorem test_call_deepest :
    after { ready 0x2300 with sp := 14 }
      (fun t => t.sp == 15 && t.stack[15] == 0x202 && t.pc == 0x300) = true := by decide

/-- T15. -/
theorem test_call_overflow :
    after { ready 0x2300 with sp := 15 }
      (fun t => haltedWith .stackOverflow 16 (some 0x2300) 0x200 t && t.sp == 15 && t.pc == 0x202) = true := by
  decide

/-- T17. -/
theorem test_ret :
    after { ready 0x00EE with sp := 1, stack := State.reset.stack.set 1 0x456 }
      (fun t => t.pc == 0x456 && t.sp == 0) = true := by decide

/-- T18. -/
theorem test_ret_underflow :
    after (ready 0x00EE)
      (fun t => haltedWith .stackUnderflow 0 (some 0x00EE) 0x200 t && t.sp == 0 && t.pc == 0x202) = true := by
  decide

/-- T19, T20. -/
theorem test_seImm :
    after ((ready 0x3342).setV 3 0x42) (fun t => t.pc == 0x204) = true ∧
    after ((ready 0x3342).setV 3 0x41) (fun t => t.pc == 0x202) = true := by decide

/-- T21, T22. -/
theorem test_sneImm :
    after ((ready 0x4342).setV 3 0x42) (fun t => t.pc == 0x202) = true ∧
    after ((ready 0x4342).setV 3 0x41) (fun t => t.pc == 0x204) = true := by decide

/-- T24, T25. -/
theorem test_seReg :
    after (((ready 0x5120).setV 1 7).setV 2 8) (fun t => t.pc == 0x202) = true ∧
    after (((ready 0x5127).setV 1 7).setV 2 7) (fun t => t.pc == 0x204) = true := by decide

/-- T27, T28. -/
theorem test_sneReg :
    after (((ready 0x9120).setV 1 7).setV 2 7) (fun t => t.pc == 0x202) = true ∧
    after (((ready 0x9120).setV 1 7).setV 2 8) (fun t => t.pc == 0x204) = true := by decide

/-- T31. -/
theorem test_jpV0_not_reduced :
    after ((ready 0xBFFF).setV 0 0xFF) (fun t => t.pc == 0x10FE) = true := by decide

/-- T40. -/
theorem test_ldImm : after (ready 0x6AFF) (fun t => t.getV 10 == 0xFF) = true := by decide

/-- T41. -/
theorem test_addImm_no_flag :
    after (((ready 0x7A01).setV 10 0xFF).setV 15 7) (fun t => t.getV 10 == 0 && t.getV 15 == 7) = true := by
  decide

/-- T43. -/
theorem test_ldReg :
    after (((ready 0x8120).setV 1 1).setV 2 0x99) (fun t => t.getV 1 == 0x99 && t.getV 2 == 0x99) = true := by
  decide

/-- T44. -/
theorem test_orReg_no_flag :
    after ((((ready 0x8121).setV 1 0x0F).setV 2 0xF0).setV 15 9)
      (fun t => t.getV 1 == 0xFF && t.getV 15 == 9) = true := by decide

/-- T45. -/
theorem test_andReg_no_flag :
    after ((((ready 0x8122).setV 1 0x3C).setV 2 0x0F).setV 15 9)
      (fun t => t.getV 1 == 0x0C && t.getV 15 == 9) = true := by decide

/-- T46. -/
theorem test_xorReg_no_flag :
    after ((((ready 0x8123).setV 1 0xFF).setV 2 0x0F).setV 15 9)
      (fun t => t.getV 1 == 0xF0 && t.getV 15 == 9) = true := by decide

/-- S2 of the source, and T49. -/
theorem test_addReg_carry :
    after (((ready 0x8124).setV 1 250).setV 2 10) (fun t => t.getV 1 == 4 && t.getV 15 == 1) = true ∧
    after ((((ready 0x8124).setV 1 200).setV 2 55).setV 15 1)
      (fun t => t.getV 1 == 255 && t.getV 15 == 0) = true := by decide

/-- T70: with `x` = 15 the sum is left, not the carry. -/
theorem test_addReg_into_VF :
    after (((ready 0x8F04).setV 15 200).setV 0 100) (fun t => t.getV 15 == 44) = true := by decide

/-- S3 of the source, and T52. -/
theorem test_subReg_borrow :
    after (((ready 0x8125).setV 1 5).setV 2 10) (fun t => t.getV 1 == 251 && t.getV 15 == 0) = true ∧
    after (((ready 0x8125).setV 1 7).setV 2 7) (fun t => t.getV 1 == 0 && t.getV 15 == 1) = true := by decide

/-- T55. -/
theorem test_shr_ignores_y :
    after (((ready 0x8126).setV 1 5).setV 2 0xFF)
      (fun t => t.getV 1 == 2 && t.getV 2 == 0xFF && t.getV 15 == 1) = true := by decide

/-- T59, under both settings. -/
theorem test_subn_directions :
    after (((ready 0x8127).setV 1 5).setV 2 10) (fun t => t.getV 1 == 251 && t.getV 15 == 1) = true ∧
    after { ((ready 0x8127).setV 1 5).setV 2 10 with cfg := { Config.default with subnCanonical := true } }
      (fun t => t.getV 1 == 5 && t.getV 15 == 1) = true := by decide

/-- T62. -/
theorem test_shl_ignores_y :
    after (((ready 0x812E).setV 1 0x81).setV 2 0xFF) (fun t => t.getV 1 == 2 && t.getV 15 == 1) = true := by
  decide

/-- T65. -/
theorem test_rnd : after (readyWith ⟨0, 0xA7⟩ 0xC30F) (fun t => t.getV 3 == 0x07) = true := by decide

/-- T90. -/
theorem test_ldI : after ((ready 0xA2F0).setI 0xFFFF) (fun t => t.i == 0x02F0) = true := by decide

/-- T94. -/
theorem test_addI_wraps :
    after (((ready 0xF21E).setI 0xFF80).setV 2 0xFF) (fun t => t.i == 0x007F && t.getV 15 == 0) = true := by
  decide

/-- T96, T97. -/
theorem test_ldF :
    after ((ready 0xF329).setV 3 15) (fun t => t.i == 0x09B) = true ∧
    after ((ready 0xF329).setV 3 16) (fun t => t.i == 0x0A0) = true := by decide

/-- T101. -/
theorem test_ldB :
    after (((ready 0xF033).setV 0 234).setI 0x300) (fun t => t.bytesAt 0x300 3 == [2, 3, 4]) = true := by
  decide

/-- T104. -/
theorem test_ldB_past_the_end :
    after (((ready 0xF033).setV 0 255).setI 4094)
      (fun t => haltedWith .memWriteOob 4096 (some 0xF033) 0x200 t && t.bytesAt 4094 2 == [0, 0]) = true := by
  decide

/-- T109. -/
theorem test_stRegs_over_its_own_word :
    after ((((((ready 0xF255).setV 0 0xA0).setV 1 0xA1).setV 2 0xA2).setV 3 0xA3).setI 0x200)
      (fun t => t.bytesAt 0x200 4 == [0xA0, 0xA1, 0xA2, 0] && t.i == 0x200) = true := by decide

/-- T107. -/
theorem test_stRegs_past_the_end :
    after (((ready 0xFF55).setV 0 0xA0).setI 4081)
      (fun t => haltedWith .memWriteOob 4096 (some 0xFF55) 0x200 t && t.readByte 4081 == 0) = true := by decide

/-- T110. -/
theorem test_ldRegs :
    after (((ready 0xF465).setI 0x082).setV 5 0x77)
      (fun t => t.v.toList.take 6 == [0xF0, 0x90, 0xF0, 0x90, 0x90, 0x77] && t.i == 0x082) = true := by decide

/-- T114. -/
theorem test_ldRegs_past_the_end :
    after (((ready 0xF165).setI 4095).setV 0 9)
      (fun t => haltedWith .memReadOob 4096 (some 0xF165) 0x200 t && t.getV 0 == 9) = true := by decide

/-- T133. -/
theorem test_cls :
    after { (ready 0x00E0).setV 15 1 with fb := Vector.replicate 32 (BitVec.allOnes 64) }
      (fun t => t.fb == Vector.replicate 32 0 && t.getV 15 == 1 && !t.fbDirty) = true := by decide

/-- S5 of the spec: a sprite at column 63 wraps to column 0 of the same row. -/
theorem test_drw_wraps :
    after ((((ready 0xD011).writeBytes 0x300 [0xFF]).setI 0x300).setV 0 63)
      (fun t => t.fb[0] == 0x800000000000007F#64 && t.fb[1] == 0 && t.getV 15 == 0 && t.fbDirty) = true := by
  decide

/-- T130. -/
theorem test_drw_collision :
    after { (((ready 0xD011).writeBytes 0x300 [0xF0]).setI 0x300) with
        fb := (Vector.replicate 32 0).set 0 0x404#64 }
      (fun t => t.fb[0] == 0x40B#64 && t.getV 15 == 1) = true := by decide

/-- T140, T141. -/
theorem test_skp :
    after ((readyWith ⟨0x0020, 0⟩ 0xE39E).setV 3 5) (fun t => t.pc == 0x204) = true ∧
    after ((readyWith ⟨0xFFDF, 0⟩ 0xE39E).setV 3 5) (fun t => t.pc == 0x202) = true := by decide

/-- T145. -/
theorem test_skp_no_such_key :
    after ((readyWith ⟨0xFFFF, 0⟩ 0xE39E).setV 3 16)
      (fun t => haltedWith .keyIndexOob 16 (some 0xE39E) 0x200 t && t.pc == 0x202) = true := by decide

/-- T142, T143. -/
theorem test_sknp :
    after ((readyWith ⟨0x0020, 0⟩ 0xE3A1).setV 3 5) (fun t => t.pc == 0x202) = true ∧
    after ((readyWith ⟨0xFFDF, 0⟩ 0xE3A1).setV 3 5) (fun t => t.pc == 0x204) = true := by decide

/-- T149. -/
theorem test_ldVxK_lowest :
    after ((readyWith ⟨0x0028, 0⟩ 0xF40A).setV 4 0x77) (fun t => t.getV 4 == 3 && t.pc == 0x202) = true := by
  decide

/-- T150: key 15 is not scanned by default, and nothing waits. -/
theorem test_ldVxK_key_15 :
    after ((readyWith ⟨0x8000, 0⟩ 0xF40A).setV 4 0x77) (fun t => t.getV 4 == 0x77 && t.pc == 0x202) = true := by
  decide

/-- T153. -/
theorem test_ldVxDT :
    after { ready 0xF307 with dt := 0x2A } (fun t => t.getV 3 == 0x2A && t.dt == 0x2A) = true := by decide

/-- T154. -/
theorem test_ldDTVx : after ((ready 0xF315).setV 3 0x3C) (fun t => t.dt == 0x3C) = true := by decide

/-- T156. -/
theorem test_ldSTVx :
    after ((ready 0xF318).setV 3 5) (fun t => t.st == 5 && !t.toneActive) = true := by decide

/-- T164, T147. -/
theorem test_unknown :
    after ((ready 0xE39F).setV 3 16)
      (fun t => t.pc == 0x202 && t.run == .running && t.fault == none &&
        t.out == [.unknownLog 0xE39F 0x200]) = true := by decide

/-! ## Fetch, the frame end, the host -/

/-- T161. -/
theorem test_fetch_past_the_end :
    after ((ready 0).setPC 4095) (fun t => haltedWith .fetchOob 4096 none 4095 t && t.pc == 4095) = true := by
  decide

/-- T163. -/
theorem test_fetch_at_an_odd_address :
    after (((ready 0).writeBytes 0x201 [0x63, 0x2A]).setPC 0x201)
      (fun t => t.getV 3 == 0x2A && t.pc == 0x203) = true := by decide

/-- T165, T166, T168: the frame end. -/
theorem test_frame_end :
    after (frameOver 3 3 false) (fun t => t.dt == 2 && t.st == 2 && t.toneActive) = true ∧
    after (frameOver 0 1 false) (fun t => t.dt == 0 && t.st == 0 && !t.toneActive) = true := by decide

/-- T169. -/
theorem test_draw_needed_pulse :
    after (frameOver 0 0 true) (fun t => t.out == [.drawNeeded true] && !t.fbDirty) = true := by decide

/-- T183. -/
theorem test_load :
    after (waiting (.load [0x12, 0x00, 0xAB]))
      (fun t => t.bytesAt 0x200 4 == [0x12, 0x00, 0xAB, 0] && t.run == .idle) = true := by decide

/-- T185. -/
theorem test_load_while_running :
    after (waitingRunning (.load [0x12])) (fun t => t.mem == [] && t.out == [.refused]) = true := by decide

/-- T173, T174: with a fault latched a start is refused, and a reset clears it. -/
theorem test_faulted_start_and_reset :
    after { faulted with inbox := [.start] } (fun t => t.run == .idle && t.fault.isSome) = true ∧
    after { faulted with inbox := [.reset] } (fun t => t == State.reset) = true := by decide

/-- R228: the launch state has the program at 0x200 and is Running. -/
theorem test_launch :
    (State.launch Config.default [0x12, 0x00]).bytesAt 0x200 2 = [0x12, 0x00] ∧
    (State.launch Config.default [0x12, 0x00]).run = .running := by decide

/-- Placing a word right after reset makes the next step run it (assumption log 15). -/
theorem test_withFetchWord :
    after (State.reset.withFetchWord 16 0x6AFF) (fun t => t.getV 10 == 0xFF && t.pc == 0x202) = true := by
  decide

/-! ## Witnesses: encoding -/

theorem witness_DecodeEncodeRoundTrip :
    (Instr.drw 15 15 15).wellFormed true = true ∧ (Instr.seReg 1 2 15).wellFormed false = true ∧
    (Instr.sys 0xFFF).wellFormed false = true ∧ (Instr.unknown 0xFFFF).wellFormed false = true := by decide

theorem witness_EveryWordDecodesToItsOwnInstruction :
    (Instr.addReg 1 2).wellFormed false = true ∧ encode (.addReg 1 2) = 0x8124 := by decide

/-! ## Witnesses: the tick, the frame, the host -/

/-- At the last address a word can be fetched from, and at an odd one. -/
theorem witness_StepRunsDecodedInstruction :
    (((ready 0).setPC 4094).TickDue ⟨0, 0⟩ [] ∧ ((ready 0).setPC 4094).pc.toNat ≤ 4094 ∧
      (0#16).toNat = (((ready 0).setPC 4094).readByte 4094).toNat * 256
        + (((ready 0).setPC 4094).readByte 4095).toNat) ∧
    (((ready 0x1234).setPC 0x201).TickDue ⟨0, 0⟩ [] ∧
      (0x3400#16).toNat = (((ready 0x1234).setPC 0x201).readByte 0x201).toNat * 256
        + (((ready 0x1234).setPC 0x201).readByte 0x202).toNat) :=
  ⟨⟨⟨rfl, rfl⟩, by decide, by decide⟩, ⟨rfl, rfl⟩, by decide⟩

theorem witness_FetchPastTheEndFaults :
    (((ready 0).setPC 4095).TickDue ⟨0, 0⟩ [] ∧ 4094 < ((ready 0).setPC 4095).pc.toNat ∧
      ((ready 0).setPC 4095).fault = none) ∧
    (((ready 0).setPC 0x10FE).TickDue ⟨0, 0⟩ [] ∧ 4094 < ((ready 0).setPC 0x10FE).pc.toNat ∧
      ((ready 0).setPC 0x10FE).fault = none) :=
  ⟨⟨⟨rfl, rfl⟩, by decide, rfl⟩, ⟨rfl, rfl⟩, by decide, rfl⟩

/-- Both storing instructions: a fetch from the address before the first stored byte, and from the last
address a word can be fetched from, where the last two bytes were stored. -/
theorem witness_StoreIsSeenByNextFetch :
    (∃ t, exec (.stRegs 0) ((ready 0).setI 0x300) = .next t ∧ t.fault = none ∧ 0x2FF ≤ 4094 ∧
      ({ t with pc := BitVec.ofNat 16 0x2FF } : State).TickDue ⟨0, 0⟩ []) ∧
    (∃ t, exec (.ldB 0) ((ready 0).setI 4093) = .next t ∧ t.fault = none ∧ 4094 ≤ 4094 ∧
      ({ t with pc := BitVec.ofNat 16 4094 } : State).TickDue ⟨0, 0⟩ []) :=
  ⟨⟨_, rfl, rfl, by decide, rfl, rfl⟩, _, rfl, rfl, by decide, rfl, rfl⟩

/-- Around the stored bytes: old and stored, stored and stored, stored and old. -/
theorem test_byteOnceStored :
    [byteOnceStored ((ready 0).setI 0x300) [1, 2] 0x2FF, byteOnceStored ((ready 0).setI 0x300) [1, 2] 0x300,
      byteOnceStored ((ready 0).setI 0x300) [1, 2] 0x301, byteOnceStored ((ready 0).setI 0x300) [1, 2] 0x302]
      = [0, 1, 2, 0] := by decide

theorem witness_FrameEnd : (frameOver 0 2 true).run = .running ∧ (frameOver 0 2 true).frame = some [] :=
  ⟨rfl, rfl⟩

/-- A Running state inside a frame that meets the invariant. -/
theorem inv_ready : (ready 0x2200).Inv where
  memWf := by decide
  spLegal := by decide
  pcBound := by decide
  returns := by decide
  bottomSlot := by decide
  faultHalts := by decide
  faultWord := by intro r h; cases h
  frameRuns := by decide
  frameShort := by intro l h; cases h; decide
  ticksValid := by decide

/-- A state as deep in the stack as there is, with its return addresses, fetching past the end. -/
theorem inv_ready_deep :
    ({ ready 0x2200 with sp := 15, stack := (Vector.replicate 16 0x1000#16).set 0 0, pc := 0x10FE }
      : State).Inv where
  memWf := by decide
  spLegal := by decide
  pcBound := by decide
  returns := by decide
  bottomSlot := by decide
  faultHalts := by decide
  faultWord := by intro r h; cases h
  frameRuns := by decide
  frameShort := by intro l h; cases h; decide
  ticksValid := by decide

theorem inv_faulted : faulted.Inv where
  memWf := by decide
  spLegal := by decide
  pcBound := by decide
  returns := by decide
  bottomSlot := by decide
  faultHalts := by decide
  faultWord := by intro r h; cases h; decide
  frameRuns := by decide
  frameShort := by intro l h; cases h
  ticksValid := by decide

theorem inv_waitingRunning : (waitingRunning .stop).Inv where
  memWf := by decide
  spLegal := by decide
  pcBound := by decide
  returns := by decide
  bottomSlot := by decide
  faultHalts := by decide
  faultWord := by intro r h; cases h
  frameRuns := by decide
  frameShort := by intro l h; cases h
  ticksValid := by decide

/-- A frame that ends (word 0x2200 is a `CALL`, legal here), and one that faults at its one tick. -/
theorem witness_EveryFrameEndsOrFaults :
    ((ready 0x2200).Inv ∧ (ready 0x2200).frame = some [⟨0, 0⟩]) ∧
    (({ ready 0x2200 with sp := 15, stack := (Vector.replicate 16 0x1000#16).set 0 0, pc := 0x10FE }
      : State).Inv ∧
     ({ ready 0x2200 with sp := 15, stack := (Vector.replicate 16 0x1000#16).set 0 0, pc := 0x10FE }
      : State).frame = some [⟨0, 0⟩]) :=
  ⟨⟨inv_ready, rfl⟩, inv_ready_deep, rfl⟩

/-- With nothing waiting, and with a load waiting. -/
theorem witness_FaultIsStickyUntilReset :
    (({ faulted with inbox := [] } : State).Inv ∧ ({ faulted with inbox := [] } : State).fault.isSome = true ∧
      (∀ rest, ({ faulted with inbox := [] } : State).inbox ≠ .reset :: rest)) ∧
    (({ faulted with inbox := [.load [1]] } : State).Inv ∧
      (∀ rest, ({ faulted with inbox := [.load [1]] } : State).inbox ≠ .reset :: rest)) :=
  ⟨⟨inv_faulted.withInbox _, rfl, by intro rest h; cases h⟩, inv_faulted.withInbox _, by intro rest h; cases h⟩

/-- The longest program, one byte more, and a load while Running. -/
theorem witness_LoadWritesTheProgramWindow :
    ((waiting (.load (List.replicate 3584 7))).TakesHostEvent (.load (List.replicate 3584 7)) [] ∧
      (waiting (.load (List.replicate 3584 7))).run = .idle ∧
      (List.replicate 3584 (7 : Byte)).length ≤ 3584) ∧
    ((waiting (.load (List.replicate 3585 7))).TakesHostEvent (.load (List.replicate 3585 7)) [] ∧
      (waiting (.load (List.replicate 3585 7))).run = .idle ∧
      3584 < (List.replicate 3585 (7 : Byte)).length) ∧
    ((waitingRunning (.load [7])).TakesHostEvent (.load [7]) [] ∧
      (waitingRunning (.load [7])).run = .running) := by
  simp only [List.length_replicate]
  exact ⟨⟨⟨.inl rfl, rfl⟩, rfl, by decide⟩, ⟨⟨.inl rfl, rfl⟩, rfl, by decide⟩, ⟨.inr rfl, rfl⟩, rfl⟩

/-- Each clause: a start that is taken, one refused while Running, one refused with a fault, a stop. -/
theorem witness_StartAndStopMoveTheScheduler :
    ((waiting .start).TakesHostEvent .start [] ∧ (waiting .start).run = .idle ∧
      (waiting .start).fault = none) ∧
    ((waitingRunning .start).TakesHostEvent .start [] ∧ (waitingRunning .start).run = .running) ∧
    (({ faulted with inbox := [.start] } : State).TakesHostEvent .start [] ∧
      ({ faulted with inbox := [.start] } : State).fault ≠ none) ∧
    (waitingRunning .stop).TakesHostEvent .stop [] :=
  ⟨⟨⟨.inl rfl, rfl⟩, rfl, rfl⟩, ⟨⟨.inr rfl, rfl⟩, rfl⟩, ⟨⟨.inl rfl, rfl⟩, by decide⟩, .inr rfl, rfl⟩

/-- Each clause: ten inputs while Running, a frame event while Idle, nine inputs while Running. -/
theorem witness_FrameEventBeginsAFrame :
    ((waitingRunning (.frame (List.replicate 10 ⟨0, 0⟩))).TakesHostEvent
        (.frame (List.replicate 10 ⟨0, 0⟩)) [] ∧
      (List.replicate 10 (⟨0, 0⟩ : TickInput)).length = State.reset.cfg.ticksPerFrame) ∧
    ((waiting (.frame [])).TakesHostEvent (.frame []) [] ∧ (waiting (.frame [])).run = .idle) ∧
    ((waitingRunning (.frame (List.replicate 9 ⟨0, 0⟩))).TakesHostEvent
        (.frame (List.replicate 9 ⟨0, 0⟩)) [] ∧
      (List.replicate 9 (⟨0, 0⟩ : TickInput)).length ≠ State.reset.cfg.ticksPerFrame) :=
  ⟨⟨⟨.inr rfl, rfl⟩, rfl⟩, ⟨⟨.inl rfl, rfl⟩, rfl⟩, ⟨.inr rfl, rfl⟩, by decide⟩

theorem witness_ResetEventRestoresEverything :
    ({ faulted with inbox := [.reset] } : State).TakesHostEvent .reset [] := ⟨.inl rfl, rfl⟩

/-! ## Witnesses: the invariant -/

/-- A tick and a fault, from states no reset leaves. -/
theorem witness_StepKeepsInvariant :
    ((ready 0x2200).Inv ∧ ∃ t, step (ready 0x2200) = .next t) ∧
    (({ ready 0x2200 with sp := 15, stack := (Vector.replicate 16 0x1000#16).set 0 0, pc := 0x10FE }
      : State).Inv ∧
     ∃ t, step { ready 0x2200 with
        sp := 15, stack := (Vector.replicate 16 0x1000#16).set 0 0, pc := 0x10FE } = .next t) :=
  ⟨⟨inv_ready, _, rfl⟩, inv_ready_deep, _, rfl⟩

theorem witness_InvariantRulesOutStops :
    (waitingRunning (.frame (List.replicate 10 ⟨0, 0⟩))).Inv ∧
    (∀ inputs rest, (waitingRunning (.frame (List.replicate 10 ⟨0, 0⟩))).inbox = .frame inputs :: rest →
      inputs.length = (waitingRunning (.frame (List.replicate 10 ⟨0, 0⟩))).cfg.ticksPerFrame) :=
  ⟨inv_waitingRunning.withInbox _, by intro inputs rest h; cases h; rfl⟩

theorem witness_CanonicalMemoryIsUnique :
    Memory.wf 0x50 [(0x50, 1), (0x300, 5), (4095, 1)] = true ∧
    (∀ a < 4096, Memory.read 0x50 [(0x50, 1), (0x300, 5), (4095, 1)] a =
      Memory.read 0x50 (Memory.write 0x50 [(0x300, 5), (4095, 1)] 0x50 1) a) ∧
    Memory.wf 0x50 (Memory.write 0x50 [(0x300, 5), (4095, 1)] 0x50 1) = true :=
  ⟨by decide, fun _ _ => rfl, by decide⟩

/-! ## Witnesses: rules about every instruction -/

theorem witness_OnlyListedInstructionsWriteVF :
    (∃ t, exec (.addReg 1 2) ((ready 0).setV 15 1) = .next t ∧
      t.getV 15 ≠ ((ready 0).setV 15 1).getV 15) ∧
    (∃ t, exec (.ldImm 15 3) (ready 0) = .next t ∧ t.getV 15 ≠ (ready 0).getV 15) :=
  ⟨⟨_, rfl, by decide⟩, _, rfl, by decide⟩

/-- An instruction that changes each kind of state, clause by clause. -/
theorem witness_AccessMatrix :
    (∃ t, exec (.stRegs 0) (((ready 0).setV 0 9).setI 4095) = .next t ∧
      t.readByte 4095 ≠ (((ready 0).setV 0 9).setI 4095).readByte 4095) ∧
    (∃ t, exec (.drw 0 0 1) ((ready 0).setI 0x50) = .next t ∧
      t.pixel 0 ≠ ((ready 0).setI 0x50).pixel 0 ∧ t.fbDirty ≠ ((ready 0).setI 0x50).fbDirty) ∧
    (∃ t, exec (.ldI 1) (ready 0) = .next t ∧ t.i ≠ (ready 0).i) ∧
    (∃ t, exec (.ldDTVx 0) ((ready 0).setV 0 1) = .next t ∧ t.dt ≠ ((ready 0).setV 0 1).dt) ∧
    (∃ t, exec (.ldSTVx 0) ((ready 0).setV 0 1) = .next t ∧ t.st ≠ ((ready 0).setV 0 1).st) ∧
    (∃ t, exec (.call 0x300) (ready 0) = .next t ∧ t.sp ≠ (ready 0).sp ∧ t.stack ≠ (ready 0).stack) ∧
    (∃ t, exec .ret (ready 0) = .next t ∧ t.run ≠ (ready 0).run ∧ t.frame ≠ (ready 0).frame ∧
      t.fault ≠ (ready 0).fault) :=
  ⟨⟨_, rfl, by decide⟩, ⟨_, rfl, by decide, by decide⟩, ⟨_, rfl, by decide⟩, ⟨_, rfl, by decide⟩,
    ⟨_, rfl, by decide⟩, ⟨_, rfl, by decide, by decide⟩, _, rfl, by decide, by decide, by decide⟩

/-- Every row of the fault table, at the last state in which it does not fault and the first in which it
does. -/
theorem witness_FaultTableIsComplete :
    (ready 0).fault = none ∧ (ready 0).sp.toNat ≤ 15 ∧
    faultOf (.drw 0 0 15) ((ready 0).setI 4081) = none ∧
    faultOf (.drw 0 0 15) ((ready 0).setI 4082) = some (.memReadOob, 4096) ∧
    faultOf (.drw 0 0 0) ((ready 0).setI 0xFFFF) = none ∧
    faultOf (.ldRegs 15) ((ready 0).setI 4080) = none ∧
    faultOf (.ldRegs 15) ((ready 0).setI 4081) = some (.memReadOob, 4096) ∧
    faultOf (.ldB 0) ((ready 0).setI 4093) = none ∧
    faultOf (.ldB 0) ((ready 0).setI 0xFFFF) = some (.memWriteOob, 0xFFFF) ∧
    faultOf (.stRegs 0) ((ready 0).setI 4095) = none ∧
    faultOf (.stRegs 0) ((ready 0).setI 4096) = some (.memWriteOob, 4096) ∧
    faultOf (.call 0) { ready 0 with sp := 14 } = none ∧
    faultOf (.call 0) { ready 0 with sp := 15 } = some (.stackOverflow, 16) ∧
    faultOf .ret { ready 0 with sp := 1 } = none ∧
    faultOf .ret (ready 0) = some (.stackUnderflow, 0) ∧
    faultOf (.skp 3) ((ready 0).setV 3 15) = none ∧
    faultOf (.skp 3) ((ready 0).setV 3 16) = some (.keyIndexOob, 16) ∧
    faultOf (.sknp 3) ((ready 0).setV 3 255) = some (.keyIndexOob, 255) := by decide

theorem witness_FaultRecordNamesTheInstruction :
    (ready 0x00EE).TickDue ⟨0, 0⟩ [] ∧ (ready 0x00EE).pc.toNat ≤ 4094 ∧ (ready 0x00EE).fault = none ∧
    ∃ t r, step (ready 0x00EE) = .next t ∧ t.fault = some r :=
  ⟨⟨rfl, rfl⟩, by decide, rfl, _, _, rfl, rfl⟩

theorem witness_OnlyRndReadsTheRandomByte : ∀ x kk, Instr.drw 1 2 5 ≠ .rnd x kk := by
  intro x kk h; cases h

theorem witness_OnlyKeyInstructionsReadTheKeys :
    (∀ x, Instr.drw 1 2 5 ≠ .skp x) ∧ (∀ x, Instr.drw 1 2 5 ≠ .sknp x) ∧
    (∀ x, Instr.drw 1 2 5 ≠ .ldVxK x) :=
  ⟨by simp, by simp, by simp⟩

/-- A skip after a fetch from 4094, and the greatest target of all. -/
theorem witness_ProgramCounterTable :
    (((ready 0).setPC 4096).pc.toNat ≤ 4096 ∧ ((ready 0).setPC 4096).fault = none ∧
      ∃ t, exec (.seImm 0 0) ((ready 0).setPC 4096) = .next t ∧ t.fault = none) ∧
    (((ready 0).setV 0 255).pc.toNat ≤ 4096 ∧
      ∃ t, exec (.jpV0 0xFFF) ((ready 0).setV 0 255) = .next t ∧ t.fault = none) :=
  ⟨⟨by decide, rfl, _, rfl, rfl⟩, by decide, _, rfl, rfl⟩

/-! ## Witnesses: the instructions -/

/-- The deepest legal call and the first that overflows. -/
theorem witness_CallPushesTheReturnAddress :
    ({ ready 0 with sp := 14 } : State).sp.toNat < 15 ∧
    15 ≤ ({ ready 0 with sp := 15 } : State).sp.toNat ∧ ({ ready 0 with sp := 15 } : State).fault = none :=
  ⟨by decide, by decide, rfl⟩

/-- The shallowest and the deepest legal return, and the underflow. -/
theorem witness_RetPopsTheReturnAddress :
    (({ ready 0 with sp := 1 } : State).sp.toNat ≤ 15 ∧ 1 ≤ ({ ready 0 with sp := 1 } : State).sp.toNat) ∧
    (({ ready 0 with sp := 15 } : State).sp.toNat ≤ 15 ∧ 1 ≤ ({ ready 0 with sp := 15 } : State).sp.toNat) ∧
    (ready 0).sp.toNat = 0 ∧ (ready 0).fault = none :=
  ⟨⟨by decide, by decide⟩, ⟨by decide, by decide⟩, by decide, rfl⟩

theorem witness_CallThenRetRoundTrip :
    (ready 0).sp.toNat < 15 ∧ ∃ t, exec (.call 0x300) (ready 0) = .next t ∧
      ({ t with dt := 9 } : State).sp = t.sp ∧ ({ t with dt := 9 } : State).stack = t.stack :=
  ⟨by decide, _, rfl, rfl, rfl⟩

/-- Both branches of every skip. -/
theorem witness_Skips :
    (ready 0).getV 3 = 0 ∧ (ready 0).getV 3 ≠ 1 ∧
    ((ready 0).setV 1 7).getV 1 ≠ ((ready 0).setV 1 7).getV 2 ∧ (ready 0).getV 1 = (ready 0).getV 2 := by
  decide

/-- A destination that is not the flag, and one that is. -/
theorem witness_FlagClauses : (1 : Reg) ≠ 15 ∧ (15 : Reg) = 15 := by decide

theorem witness_SubtractReversedFlag :
    State.reset.cfg.subnCanonical = false ∧
    (State.resetWith { Config.default with subnCanonical := true } [] []).cfg.subnCanonical = true := by
  decide

theorem witness_BcdStoresThreeDigits :
    ((ready 0).setI 4093).i.toNat + 2 ≤ 4095 ∧ ((ready 0).setI 4094).i.toNat + 2 > 4095 ∧
    ((ready 0).setI 4094).fault = none := by decide

/-- The highest legal base of a whole block, and one above it; the statements for the two directions have
the same premises. -/
theorem witness_BlockStore_BlockLoad :
    ((ready 0).setI 4080).i.toNat + (15 : Reg).val ≤ 4095 ∧
    ((ready 0).setI 4081).i.toNat + (15 : Reg).val > 4095 ∧ ((ready 0).setI 4081).fault = none := by decide

/-- No rows at any `I`, and the longest sprite that ends at 4095. -/
theorem witness_DrawInvertsSpritePixels :
    ((0 : Nibble).val = 0 ∨ ((ready 0).setI 0xFFFF).i.toNat + (0 : Nibble).val - 1 ≤ 4095) ∧
    ((15 : Nibble).val = 0 ∨ ((ready 0).setI 4081).i.toNat + (15 : Nibble).val - 1 ≤ 4095) := by decide

/-- The collision clause and its opposite, for the first row of the glyph 0 at the origin. -/
theorem witness_DrawInvertsSpritePixels_collision :
    SpriteOn ((ready 0).setI 0x50) 0 0 1 0 ∧ ((ready 0).setI 0x50).pixel 0 = false ∧
    SpriteOn { (ready 0).setI 0x50 with fb := (Vector.replicate 32 0).set 0 1#64 } 0 0 1 0 ∧
    ({ (ready 0).setI 0x50 with fb := (Vector.replicate 32 0).set 0 1#64 } : State).pixel 0 = true :=
  ⟨⟨0, 0, by decide⟩, by decide, ⟨0, 0, by decide⟩, by decide⟩

theorem witness_DrawPastMemoryFaults :
    (0 < (15 : Nibble).val ∧ ((ready 0).setI 4082).i.toNat + (15 : Nibble).val - 1 > 4095 ∧
      ((ready 0).setI 4082).fault = none) ∧
    (0 < (1 : Nibble).val ∧ ((ready 0).setI 4096).i.toNat + (1 : Nibble).val - 1 > 4095) := by decide

theorem witness_DrawingTwiceRestores :
    ((1 : Nibble).val = 0 ∨ ((ready 0).setI 0x50).i.toNat + (1 : Nibble).val - 1 ≤ 4095) ∧
    ∃ t, exec (.drw 0 1 1) ((ready 0).setI 0x50) = .next t ∧
      ({ t with pc := 0x200 } : State).fb = t.fb ∧
      ({ t with pc := 0x200 } : State).i = ((ready 0).setI 0x50).i ∧
      ({ t with pc := 0x200 } : State).getV 0 = ((ready 0).setI 0x50).getV 0 ∧
      ({ t with pc := 0x200 } : State).getV 1 = ((ready 0).setI 0x50).getV 1 ∧
      (∀ r < (1 : Nibble).val, ({ t with pc := 0x200 } : State).readByte (0x50 + r) =
        ((ready 0).setI 0x50).readByte (0x50 + r)) :=
  ⟨by decide, _, rfl, rfl, rfl, by decide, by decide, fun _ _ => rfl⟩

/-- The last key number and the first that is none; a key that is down and one that is up. -/
theorem witness_KeySkips :
    (((ready 0).setV 3 15).getV 3).toNat ≤ 15 ∧
    (15 < (((ready 0).setV 3 16).getV 3).toNat ∧ ((ready 0).setV 3 16).fault = none) ∧
    ({ (ready 0).setV 3 15 with keys := 0x8000 } : State).keys.getLsbD
      (({ (ready 0).setV 3 15 with keys := 0x8000 } : State).getV 3).toNat = true ∧
    (ready 0).keys.getLsbD (((ready 0).setV 3 15).getV 3).toNat = false := by decide

/-- The last key scanned is the lowest down; and none of the scanned ones is down. -/
theorem witness_KeyCaptureDoesNotWait :
    (14 ≤ (ready 0).cfg.keyscanLast.val ∧ ({ ready 0 with keys := 0xC000 } : State).keys.getLsbD 14 = true ∧
      ∀ j < 14, ({ ready 0 with keys := 0xC000 } : State).keys.getLsbD j = false) ∧
    (∀ k, k ≤ ({ ready 0 with keys := 0x8000 } : State).cfg.keyscanLast.val →
      ({ ready 0 with keys := 0x8000 } : State).keys.getLsbD k = false) := by
  refine ⟨by decide, ?_⟩
  intro k hk
  have hk' : k ≤ 14 := hk
  have all : ∀ j < 15, (0x8000#16).getLsbD j = false := by decide
  exact all k (by omega)

end Sys2Proof.Tests
end

section
/-! SUPPORT. A frame under way (R178): every tick of it keeps it under way with one tick fewer, or takes a
fault and abandons it. An execution keeps `SP` legal (R24), so no tick stops the machine. -/

namespace Sys2Proof.Machine

open Sys2Proof

/-! ## `SP` after an execution (R24) -/

/-- A result that is a next state has the `SP` of `s`. -/
def KeepsSP (s : State) (r : Result) : Prop := ∀ t, r = .next t → t.sp = s.sp

theorem keepsSP_next {s t : State} (h : t.sp = s.sp) : KeepsSP s (.next t) := by
  rintro _ ⟨⟩
  exact h

theorem raise_keepsSP (i : Instr) (kind : FaultKind) (addr : Nat) (s : State) :
    KeepsSP s (raise i kind addr s) :=
  keepsSP_next (by simp)

theorem keySkip_keepsSP (i : Instr) (x : Reg) (down : Bool) (s : State) :
    KeepsSP s (keySkip i x down s) := by
  unfold keySkip
  split
  · exact raise_keepsSP _ _ _ _
  · exact keepsSP_next (by simp)

theorem memWrite_keepsSP (i : Instr) (s : State) (a : Nat) (bs : List Byte) :
    KeepsSP s (match s.memWrite a bs with
      | .ok t => .next t
      | .error bad => raise i .memWriteOob bad s) := by
  unfold State.memWrite
  cases boundError a bs.length with
  | none => exact keepsSP_next (by simp)
  | some bad => exact raise_keepsSP _ _ _ _

theorem execLdRegs_keepsSP (x : Reg) (s : State) : KeepsSP s (execLdRegs x s) := by
  unfold execLdRegs
  cases s.memRead s.base (x.val + 1) with
  | ok bytes => exact keepsSP_next (by simp)
  | error bad => exact raise_keepsSP _ _ _ _

theorem execDrw_keepsSP (x y : Reg) (n : Nibble) (s : State) : KeepsSP s (execDrw x y n s) := by
  unfold execDrw
  cases s.spriteRows n with
  | ok rows => exact keepsSP_next (by simp)
  | error bad => exact raise_keepsSP _ _ _ _

theorem execLdVxK_keepsSP (x : Reg) (s : State) : KeepsSP s (execLdVxK x s) := by
  unfold execLdVxK
  refine keepsSP_next ?_
  cases s.scanKeys <;> rfl

/-- Only `RET` and `CALL` change `SP`. -/
theorem exec_keepsSP {i : Instr} (hret : i ≠ .ret) (hcall : ∀ addr, i ≠ .call addr) (s : State) :
    KeepsSP s (exec i s) := by
  cases i with
  | ret => exact absurd rfl hret
  | call addr => exact absurd rfl (hcall addr)
  | drw x y n => exact execDrw_keepsSP x y n s
  | skp x => exact keySkip_keepsSP _ x true s
  | sknp x => exact keySkip_keepsSP _ x false s
  | ldVxK x => exact execLdVxK_keepsSP x s
  | ldB x => exact memWrite_keepsSP _ s _ _
  | stRegs x => exact memWrite_keepsSP _ s _ _
  | ldRegs x => exact execLdRegs_keepsSP x s
  | seImm _ _ | sneImm _ _ | seReg _ _ _ | sneReg _ _ _ => exact keepsSP_next (State.skipIf_sp s _)
  | cls | sys _ | jp _ | ldImm _ _ | addImm _ _ | ldReg _ _ | orReg _ _ | andReg _ _ | xorReg _ _
  | addReg _ _ | subReg _ _ | shr _ _ | subn _ _ | shl _ _ | ldI _ | jpV0 _ | rnd _ _ | ldVxDT _
  | ldDTVx _ | ldSTVx _ | addI _ | ldF _ | unknown _ => exact keepsSP_next rfl

/-- A `RET` pops one slot or leaves `SP` as it is. -/
theorem execRet_legalSP {s t : State} (hs : s.sp.toNat ≤ 15) (h : execRet s = .next t) :
    t.sp.toNat ≤ 15 := by
  unfold execRet at h
  split at h
  · rwa [raise_keepsSP _ _ _ _ t h]
  next hne =>
    split at h
    · cases h
      rw [State.popFrom_sp]
      bv_omega
    · cases h

/-- A `CALL` pushes into a slot of at most 15 or leaves `SP` as it is. -/
theorem execCall_legalSP {addr : Addr12} {s t : State} (hs : s.sp.toNat ≤ 15)
    (h : execCall addr s = .next t) : t.sp.toNat ≤ 15 := by
  unfold execCall at h
  split at h
  · cases h
    simp only [State.setPC_sp, State.pushAt_sp, BitVec.toNat_ofNat]
    omega
  · rwa [raise_keepsSP _ _ _ _ t h]

/-- R24: an execution keeps `SP` within 0 to 15. -/
theorem exec_legalSP {i : Instr} {s t : State} (hs : s.sp.toNat ≤ 15) (h : exec i s = .next t) :
    t.sp.toNat ≤ 15 := by
  by_cases hret : i = .ret
  · subst hret
    exact execRet_legalSP hs h
  · by_cases hcall : ∃ addr, i = .call addr
    · obtain ⟨addr, rfl⟩ := hcall
      exact execCall_legalSP hs h
    · rwa [exec_keepsSP hret (not_exists.1 hcall) s t h]

/-! ## A frame under way, and one abandoned -/

/-- A frame is under way with the ticks `l` left, and no fault is latched. -/
structure State.InFrame (s : State) (l : List TickInput) : Prop where
  run     : s.run = .running
  frame   : s.frame = some l
  fault   : s.fault = none
  spLegal : s.sp.toNat ≤ 15

/-- A fault has halted the machine and ended the frame (R182). -/
structure State.FrameAbandoned (s : State) : Prop where
  frame : s.frame = none
  fault : s.fault ≠ none
  run   : s.run = .idle

theorem State.Inv.inFrame {s : State} {l : List TickInput} (h : s.Inv) (hf : s.frame = some l) :
    s.InFrame l := by
  have hr : s.run = .running := h.frameRuns (by simp [hf])
  refine ⟨hr, hf, ?_, h.spLegal⟩
  by_contra hfault
  simp [h.faultHalts hfault] at hr

theorem State.takeFault_frameAbandoned {s : State} (r : FaultRecord) (h : s.fault = none) :
    (s.takeFault r).FrameAbandoned :=
  ⟨rfl, by simp [h], rfl⟩

theorem State.InFrame.beginTick {s : State} {input : TickInput} {rest : List TickInput}
    (h : s.InFrame (input :: rest)) : (s.beginTick input rest).InFrame rest :=
  ⟨h.run, rfl, h.fault, h.spLegal⟩

/-- Fetch moves `PC` alone (R171), so it leaves the frame where it is. -/
theorem State.InFrame.setPC {s : State} {l : List TickInput} (h : s.InFrame l) (a : Word) :
    (s.setPC a).InFrame l :=
  ⟨h.run, h.frame, h.fault, h.spLegal⟩

/-- An execution leaves the frame where it is, or faults and abandons it. -/
theorem State.InFrame.exec_ends {s : State} {l : List TickInput} (h : s.InFrame l) (i : Instr) :
    ∃ t, exec i s = .next t ∧ (t.InFrame l ∨ t.FrameAbandoned) := by
  obtain ⟨t, ht⟩ := exec_next_of_legalSP i h.spLegal
  refine ⟨t, ht, ?_⟩
  rcases exec_next_cases ht with same | ⟨kind, addr, -, rfl⟩
  · exact .inl ⟨same.run.trans h.run, same.frame.trans h.frame, same.fault.trans h.fault,
      exec_legalSP h.spLegal ht⟩
  · exact .inr (State.takeFault_frameAbandoned _ h.fault)

/-- R170, R178: the step of a due tick runs that tick off the frame, or faults and abandons it. -/
theorem State.InFrame.step_tick {s : State} {input : TickInput} {rest : List TickInput}
    (h : s.InFrame (input :: rest)) :
    ∃ t, step s = .next t ∧ (t.InFrame rest ∨ t.FrameAbandoned) := by
  rw [step_of_tickDue ⟨h.run, h.frame⟩]
  by_cases hpc : s.pc.toNat ≤ 4094
  · rw [tick_inside input rest s hpc]
    exact (h.beginTick.setPC _).exec_ends _
  · rw [tick_outside input rest s (by omega)]
    exact ⟨_, rfl, .inr (State.takeFault_frameAbandoned _ h.fault)⟩

/-- R178, R182: a frame with the ticks `l` left ends after them and the frame end, or one of them faults. -/
theorem State.InFrame.run_ends {l : List TickInput} {s : State} (h : s.InFrame l) :
    ∃ (k : Nat) (t : State), Host.Core.run Sys2Proof.core k s = .next t ∧ t.frame = none ∧
      ((k = l.length + 1 ∧ t.fault = none ∧ t.run = .running) ∨
       (k ≤ l.length ∧ t.fault ≠ none ∧ t.run = .idle)) := by
  induction l generalizing s with
  | nil =>
    refine ⟨1, s.frameEnd, core_run_succ 0 (step_of_frameEnd h.run h.frame), rfl, .inl ⟨rfl, ?_, ?_⟩⟩
    · exact h.fault
    · exact h.run
  | cons input rest ih =>
    obtain ⟨t, ht, hin | gone⟩ := h.step_tick
    · obtain ⟨k, u, hrun, hframe, hends⟩ := ih hin
      refine ⟨k + 1, u, (core_run_succ k ht).trans hrun, hframe, ?_⟩
      rw [List.length_cons]
      exact hends.imp (.imp_left (by omega)) (.imp_left (by omega))
    · exact ⟨1, t, core_run_succ 0 ht, gone.frame, .inr ⟨by simp, gone.fault, gone.run⟩⟩

/-- Settles O10, by induction on the ticks left in the frame. -/
theorem everyFrameEndsOrFaults : Obligations.EveryFrameEndsOrFaults :=
  fun _ _ hinv hframe => (hinv.inFrame hframe).run_ends

end Sys2Proof.Machine
end

section
/-! SUPPORT. Control flow that completes whatever the state: `SYS` (R100), the two jumps (R102, R108) and
the skips (R104 to R107, R160, R161), whose one rule is that of `skipIf`. -/

namespace Sys2Proof.Machine

open Sys2Proof

/-! ## `SYS` and the jumps -/

/-- Settles O28: the next state of `SYS` is the state itself. -/
theorem sysIsANoOp : Obligations.SysIsANoOp :=
  fun _ s => ⟨s, rfl, KeepsExcept.refl s⟩

/-- R8: zero extension of an address keeps the number. -/
theorem zextAddr_toNat (addr : Addr12) : (zextAddr addr).toNat = addr.toNat :=
  BitVec.toNat_setWidth_of_le (by decide)

/-- R108: the sum of an address and a byte is below 4096 + 256, so 16 bits hold it exactly. -/
theorem zextAddr_add_zextByte_toNat (addr : Addr12) (b : Byte) :
    (zextAddr addr + zextByte b).toNat = addr.toNat + b.toNat := by
  have haddr : addr.toNat < 4096 := addr.isLt
  have hb : b.toNat < 256 := b.isLt
  have hzext : (zextByte b).toNat = b.toNat := BitVec.toNat_setWidth_of_le (by decide)
  rw [BitVec.toNat_add, zextAddr_toNat, hzext]
  omega

/-- Settles O30: both jumps are one `setPC`, the second to a sum that does not wrap. -/
theorem jumpsSetTheProgramCounter : Obligations.JumpsSetTheProgramCounter := fun addr s =>
  ⟨⟨_, rfl, zextAddr_toNat addr, State.setPC_keeps s _⟩,
   ⟨_, rfl, zextAddr_add_zextByte_toNat addr (s.getV 0), State.setPC_keeps s _⟩⟩

/-! ## The skips -/

/-- R104 to R107, R160, R161: the rule of an instruction that is a skip on the test `c`, with `P` and `Q`
the conditions of its statement that make the test true and false. -/
theorem exec_skips {i : Instr} {s : State} {c : Bool} {P Q : Prop}
    (hexec : exec i s = .next (s.skipIf c)) (hskip : P → c = true) (hstay : Q → c = false) :
    ∃ t, exec i s = .next t ∧ (P → t.pc = s.pc + 2) ∧ (Q → t.pc = s.pc) ∧
      KeepsExcept (fun p => p = .pc) s t := by
  refine ⟨s.skipIf c, hexec, fun h => ?_, fun h => ?_, s.skipIf_keeps c⟩
  · simp [State.skipIf_pc, hskip h]
  · simp [State.skipIf_pc, hstay h]

/-- Settles O34: the two instructions are skips on `V[x] == kk` and on its negation. -/
theorem immediateSkips : Obligations.ImmediateSkips := fun _ _ _ =>
  ⟨exec_skips rfl beq_iff_eq.2 beq_false_of_ne, exec_skips rfl bne_iff_ne.2 bne_eq_false_iff_eq.2⟩

end Sys2Proof.Machine
end

section
/-! SUPPORT. Loads and the ALU: instructions that complete by one write to `V[x]` and touch no flag (R120 to
R122, R132). -/

namespace Sys2Proof.Machine

open Sys2Proof

/-! ## The loads and the immediate add -/

/-- Settles O36: each of the three is one `setV` of `V[x]`, `x = 15` included. -/
theorem loadsAndImmediateAdd : Obligations.LoadsAndImmediateAdd := by
  intro x y kk s
  refine ⟨⟨s.setV x kk, rfl, ?_, State.setV_keeps s x kk⟩,
    ⟨s.setV x (s.getV x + kk), rfl, ?_, State.setV_keeps s x _⟩,
    ⟨s.setV x (s.getV y), rfl, ?_, State.setV_keeps s x _⟩⟩
  · exact State.getV_setV_same s x kk
  · rw [State.getV_setV_same, BitVec.toNat_add]
  · exact State.getV_setV_same s x _

/-! ## The random byte -/

/-- R132: a byte cut down to a mask has no bit outside it. -/
theorem masked_and_complement (b mask : Byte) : b &&& mask &&& ~~~mask = 0 := by
  rw [BitVec.and_assoc, BitVec.and_not_self]
  exact BitVec.and_zero

/-- Settles O42: one `setV` of the random byte under the mask `kk`. -/
theorem randomByteIsMasked : Obligations.RandomByteIsMasked := by
  intro x kk s
  refine ⟨s.setV x (s.rnd &&& kk), rfl, fun k _ => ?_, ?_, State.setV_keeps s x _⟩
  · rw [State.getV_setV_same, BitVec.getLsbD_and]
  · rw [State.getV_setV_same, masked_and_complement]

end Sys2Proof.Machine
end

section
/-! SUPPORT. The index register: instructions that complete by one write to `I` (R140). -/

namespace Sys2Proof.Machine

open Sys2Proof

/-- Settles O43: one `setI` of the zero-extended address. -/
theorem loadIndex : Obligations.LoadIndex :=
  fun addr s => ⟨s.setI (zextAddr addr), rfl, zextAddr_toNat addr, State.setI_keeps s _⟩

end Sys2Proof.Machine
end

section
/-! SUPPORT. The delay and sound timers: instructions that complete by one copy between a register and a
timer (R163 to R165). -/

namespace Sys2Proof.Machine

open Sys2Proof

/-- Settles O54: the three copies are one `setV`, one `setDT` and one `setST`, each with its own frame. -/
theorem timerCopies : Obligations.TimerCopies := by
  intro x s
  refine ⟨⟨s.setV x s.dt, rfl, ?_, State.setV_keeps s x s.dt⟩,
    ⟨s.setDT (s.getV x), rfl, ?_, State.setDT_keeps s _⟩,
    ⟨s.setST (s.getV x), rfl, ?_, State.setST_keeps s _⟩⟩
  · exact State.getV_setV_same s x s.dt
  · exact State.setDT_dt s (s.getV x)
  · exact State.setST_st s (s.getV x)

end Sys2Proof.Machine
end

section
/-! SUPPORT. The frame end (R178 to R181): the count of one timer, and what the frame end keeps. -/

namespace Sys2Proof.Machine

open Sys2Proof

/-! ## The countdown -/

/-- R179: one count is subtraction of 1 on numbers, which is 0 at 0, so a timer does not wrap. -/
theorem countDown_toNat (b : Byte) : (countDown b).toNat = b.toNat - 1 := by
  unfold countDown
  split
  case isTrue hzero => rw [hzero]; rfl
  case isFalse hpos => bv_omega

@[simp] theorem State.frameEnd_dt (s : State) : s.frameEnd.dt = countDown s.dt := rfl
@[simp] theorem State.frameEnd_st (s : State) : s.frameEnd.st = countDown s.st := rfl

/-! ## The frame -/

theorem State.frameEnd_keeps (s : State) :
    KeepsExcept (fun p => p = .dt ∨ p = .st ∨ p = .toneActive ∨ p = .fbDirty ∨ p = .frame ∨ p = .out)
      s s.frameEnd := by
  intro p hp
  cases p with
  | dt | st | toneActive | fbDirty | frame | out => simp at hp
  | _ => rfl

/-- Settles O8: the step is the frame end, which counts each timer down once. -/
theorem frameEndCountsTimersDown : Obligations.FrameEndCountsTimersDown := by
  intro s hrun hframe
  refine ⟨s.frameEnd, step_of_frameEnd hrun hframe, ?_, ?_, s.frameEnd_keeps⟩
  · rw [State.frameEnd_dt, countDown_toNat]
  · rw [State.frameEnd_st, countDown_toNat]

end Sys2Proof.Machine
end

section
/-! SUPPORT. The two directions of decode and encode (R80 to R93), family by family, and the opcode table read
by its own procedure (R96). -/

namespace Sys2Proof

/-! ## From an instruction to its word and back -/

/-- R87: a word of family 8 with a low nibble that family 8 does not define. -/
theorem decodeFamily8_undefined {w : Word} (h : definedLow8.contains (fieldN w).val = false) :
    decodeFamily8 w = .unknown w := by
  simp only [definedLow8, List.contains_eq_mem, decide_eq_false_iff_not, List.mem_cons,
    List.not_mem_nil, or_false, not_or] at h
  simp [decodeFamily8, Fin.ext_iff, h]

/-- R89: a word of family E with a low byte that family E does not define. -/
theorem decodeFamilyE_undefined {w : Word} (h : definedLowE.contains (fieldKK w).toNat = false) :
    decodeFamilyE w = .unknown w := by
  simp only [definedLowE, List.contains_eq_mem, decide_eq_false_iff_not, List.mem_cons,
    List.not_mem_nil, or_false, not_or] at h
  simp [decodeFamilyE, ← BitVec.toNat_inj, h]

/-- R90: a word of family F with a low byte that family F does not define. -/
theorem decodeFamilyF_undefined {w : Word} (h : definedLowF.contains (fieldKK w).toNat = false) :
    decodeFamilyF w = .unknown w := by
  simp only [definedLowF, List.contains_eq_mem, decide_eq_false_iff_not, List.mem_cons,
    List.not_mem_nil, or_false, not_or] at h
  simp [decodeFamilyF, ← BitVec.toNat_inj, h]

/-- R88: a word of family 5 or 9 whose ignored nibble `STRICT_XY0` does not allow. -/
theorem decodeXY0_undefined {strict : Bool} {op : Reg → Reg → Nibble → Instr} {w : Word}
    (h : (!strict || fieldN w == 0) = false) : decodeXY0 strict op w = .unknown w := by
  simp only [Bool.or_eq_false_iff, Bool.not_eq_false', beq_eq_false_iff_ne] at h
  exact if_pos h

/-- R84 to R91: a word that is none of the 35 defined operations is `Unknown`. -/
theorem decode_undefined {strict : Bool} {w : Word} (h : isDefinedWord strict w = false) :
    decode strict w = .unknown w := by
  rw [isDefinedWord_fields] at h
  split at h
  next h8 => simp [decode_msn, h8, decodeFamily8_undefined h]
  split at h
  next hE => simp [decode_msn, hE, decodeFamilyE_undefined h]
  split at h
  next hF => simp [decode_msn, hF, decodeFamilyF_undefined h]
  split at h
  next h59 =>
    rcases h59 with h5 | h9
    · simp [decode_msn, h5, decodeXY0_undefined h]
    · simp [decode_msn, h9, decodeXY0_undefined h]
  · cases h

/-- R86: `SYS` decodes back when it is neither of the two fixed words of its family. -/
theorem decode_encode_sys {strict : Bool} {addr : Addr12}
    (h : (Instr.sys addr).wellFormed strict = true) : decode strict (encode (.sys addr)) = .sys addr := by
  simp only [Instr.wellFormed, Bool.and_eq_true, bne_iff_ne] at h
  simp [encode, decode_msn, decodeFamily0, h]

/-- R88: families 5 and 9 decode back when `STRICT_XY0` allows their ignored nibble. -/
theorem decodeXY0_packXYN {strict : Bool} (op : Reg → Reg → Nibble → Instr) (m : BitVec 4) (x y : Reg)
    {n : Nibble} (h : (!strict || n == 0) = true) :
    decodeXY0 strict op (packXYN m x y n) = op x y n := by
  cases strict <;> simp_all [decodeXY0]

/-- Settles O1: the fields of a laid out word are the operands, and each family's selector is its own. -/
theorem decodeEncodeRoundTrip : Obligations.DecodeEncodeRoundTrip := by
  intro strict i hwf
  cases i with
  | cls | ret => cases strict <;> rfl
  | sys addr => exact decode_encode_sys hwf
  | seReg x y n | sneReg x y n => simpa [encode, decode_msn] using decodeXY0_packXYN _ _ x y hwf
  | unknown w => exact decode_undefined (by simpa [Instr.wellFormed, encode] using hwf)
  | jp _ | call _ | ldI _ | jpV0 _ => simp [encode, decode_msn]
  | seImm _ _ | sneImm _ _ | ldImm _ _ | addImm _ _ | rnd _ _ => simp [encode, decode_msn]
  | drw _ _ _ => simp [encode, decode_msn]
  | ldReg _ _ | orReg _ _ | andReg _ _ | xorReg _ _ | addReg _ _ | subReg _ _ | shr _ _ | subn _ _
  | shl _ _ => simp [encode, decode_msn, decodeFamily8]
  | skp _ | sknp _ => simp [encode, decode_msn, decodeFamilyE]
  | ldVxDT _ | ldDTVx _ | ldSTVx _ | ldVxK _ | addI _ | ldF _ | ldB _ | stRegs _ | ldRegs _ =>
    simp [encode, decode_msn, decodeFamilyF]

/-! ## From a word to its instruction and back -/

/-- R84: the instruction is the classification of the word: well formed, and that word is its own. -/
def Classifies (strict : Bool) (w : Word) (i : Instr) : Prop :=
  i.wellFormed strict = true ∧ encode i = w

/-- An `Unknown` classifies a word that is none of the defined operations. -/
theorem classifies_unknown {strict : Bool} {w : Word} (h : isDefinedWord strict w = false) :
    Classifies strict w (.unknown w) := ⟨by simpa [Instr.wellFormed] using h, rfl⟩

theorem packNNN_of_msn {w : Word} {m : BitVec 4} (h : msn w = m) : packNNN m (fieldAddr w) = w := by
  rw [← h, packNNN_fields]

theorem packXKK_of_msn {w : Word} {m : BitVec 4} {kk : Byte} (h : msn w = m) (hk : fieldKK w = kk) :
    packXKK m (fieldX w) kk = w := by
  rw [← h, ← hk, packXKK_fields]

theorem packXYN_of_msn {w : Word} {m : BitVec 4} {n : Nibble} (h : msn w = m) (hn : fieldN w = n) :
    packXYN m (fieldX w) (fieldY w) n = w := by
  rw [← h, ← hn, packXYN_fields]

theorem decodeFamily0_classifies {strict : Bool} {w : Word} (h : msn w = 0x0) :
    Classifies strict w (decodeFamily0 w) := by
  have hw := packNNN_of_msn h
  unfold decodeFamily0
  split
  next hcls => rw [hcls] at hw; exact ⟨rfl, hw⟩
  split
  next hret => rw [hret] at hw; exact ⟨rfl, hw⟩
  next hcls hret => exact ⟨by simp [Instr.wellFormed, hcls, hret], hw⟩

theorem decodeFamily8_classifies {strict : Bool} {w : Word} (h : msn w = 0x8) :
    Classifies strict w (decodeFamily8 w) := by
  iterate 9 refine iteInduction (fun hn => ⟨rfl, packXYN_of_msn h hn⟩) fun _ => ?_
  refine classifies_unknown ?_
  rw [isDefinedWord_fields, if_pos h]
  simp only [Fin.ext_iff, Fin.isValue] at *
  simp_all [definedLow8, -Fin.val_eq_zero_iff]

theorem decodeFamilyE_classifies {strict : Bool} {w : Word} (h : msn w = 0xE) :
    Classifies strict w (decodeFamilyE w) := by
  iterate 2 refine iteInduction (fun hk => ⟨rfl, packXKK_of_msn h hk⟩) fun _ => ?_
  refine classifies_unknown ?_
  rw [isDefinedWord_fields, h]
  simp_all [definedLowE, ← BitVec.toNat_inj]

theorem decodeFamilyF_classifies {strict : Bool} {w : Word} (h : msn w = 0xF) :
    Classifies strict w (decodeFamilyF w) := by
  iterate 9 refine iteInduction (fun hk => ⟨rfl, packXKK_of_msn h hk⟩) fun _ => ?_
  refine classifies_unknown ?_
  rw [isDefinedWord_fields, h]
  simp_all [definedLowF, ← BitVec.toNat_inj]

/-- R88: families 5 and 9, of which the constructor `op` is one. -/
theorem decodeXY0_classifies {strict : Bool} {op : Reg → Reg → Nibble → Instr} {w : Word}
    (h59 : msn w = 0x5 ∨ msn w = 0x9)
    (hop : ∀ x y n, encode (op x y n) = packXYN (msn w) x y n ∧
      (op x y n).wellFormed strict = (!strict || n == 0)) :
    Classifies strict w (decodeXY0 strict op w) := by
  obtain ⟨hword, hwf⟩ := hop (fieldX w) (fieldY w) (fieldN w)
  unfold decodeXY0
  split
  next hn =>
    refine classifies_unknown ?_
    rcases h59 with h | h <;> simp [isDefinedWord_fields, h, hn]
  next hn =>
    refine ⟨?_, by rw [hword, packXYN_fields]⟩
    rw [hwf]
    cases strict <;> simp_all

/-- Every family: of one operation, or one of the lemmas above. -/
theorem decode_classifies (strict : Bool) (w : Word) : Classifies strict w (decode strict w) := by
  rw [decode_msn]
  rcases msn_cases w with h | h | h | h | h | h | h | h | h | h | h | h | h | h | h | h <;>
    simp only [h, reduceIte, BitVec.reduceEq]
  · exact decodeFamily0_classifies h
  · exact ⟨rfl, packNNN_of_msn h⟩
  · exact ⟨rfl, packNNN_of_msn h⟩
  · exact ⟨rfl, packXKK_of_msn h rfl⟩
  · exact ⟨rfl, packXKK_of_msn h rfl⟩
  · exact decodeXY0_classifies (.inl h) fun _ _ _ => ⟨by rw [h]; rfl, rfl⟩
  · exact ⟨rfl, packXKK_of_msn h rfl⟩
  · exact ⟨rfl, packXKK_of_msn h rfl⟩
  · exact decodeFamily8_classifies h
  · exact decodeXY0_classifies (.inr h) fun _ _ _ => ⟨by rw [h]; rfl, rfl⟩
  · exact ⟨rfl, packNNN_of_msn h⟩
  · exact ⟨rfl, packNNN_of_msn h⟩
  · exact ⟨rfl, packXKK_of_msn h rfl⟩
  · exact ⟨rfl, packXYN_of_msn h rfl⟩
  · exact decodeFamilyE_classifies h
  · exact decodeFamilyF_classifies h

/-- Settles O2: the decoded instruction is a classification, and by the round trip the only one. -/
theorem everyWordDecodesToItsOwnInstruction : Obligations.EveryWordDecodesToItsOwnInstruction := by
  intro strict w
  obtain ⟨hwf, hword⟩ := decode_classifies strict w
  refine ⟨hwf, hword, ?_⟩
  rintro i hi rfl
  exact (decodeEncodeRoundTrip strict i hi).symm

/-! ## The opcode table (R96) -/

/-- A row that does not match plays no part, so only rows that a test keeps need be looked at when every
matching row passes it. -/
theorem bestRow_filter {strict : Bool} {w : Word} (keep : OpcodeRow → Bool) {rows : List OpcodeRow}
    (h : ∀ r ∈ rows, r.isMatch strict w = true → keep r = true) (best : Option OpcodeRow) :
    bestRow strict w rows best = bestRow strict w (rows.filter keep) best := by
  induction rows generalizing best with
  | nil => rfl
  | cons r rs ih =>
    have ih := ih fun q hq => h q (List.mem_cons_of_mem r hq)
    by_cases hr : keep r = true
    · simp only [List.filter_cons_of_pos hr, bestRow, ih]
    · have hno : r.isMatch strict w = false := by
        simpa using mt (h r List.mem_cons_self) hr
      simp only [List.filter_cons_of_neg hr, bestRow, hno, Bool.false_and, Bool.false_eq_true, if_false, ih]

/-- A row of the family `m`, or the last row, whose mask is empty. -/
def OpcodeRow.ofFamily (m : BitVec 4) (r : OpcodeRow) : Bool := msn r.pattern == m || r.row == 36

/-- Every row but the last compares the whole of `msn`. -/
theorem opcodeRows_mask_msn :
    ∀ r ∈ opcodeRows, r.row = 36 ∨ msn r.mask = 0xF ∧ msn r.maskStrict = 0xF := by
  decide

theorem msn_and (a b : Word) : msn (a &&& b) = msn a &&& msn b := by
  apply BitVec.eq_of_getLsbD_eq; intro i hi
  simp [msn, hi]

/-- A word matches rows of its own family alone. -/
theorem OpcodeRow.ofFamily_of_isMatch {strict : Bool} {w : Word} {r : OpcodeRow} (hr : r ∈ opcodeRows)
    (h : r.isMatch strict w = true) : r.ofFamily (msn w) = true := by
  rcases opcodeRows_mask_msn r hr with h36 | ⟨hmask, hstrict⟩
  · simp [OpcodeRow.ofFamily, h36]
  · have hpat : w &&& (if strict then r.maskStrict else r.mask) = r.pattern := by
      simpa [OpcodeRow.isMatch] using h
    have hone : msn w &&& 0xF#4 = msn w := BitVec.and_allOnes
    have : msn r.pattern = msn w := by
      rw [← hpat, msn_and]
      cases strict <;> simp [hmask, hstrict, hone]
    simp [OpcodeRow.ofFamily, this]

/-- The table's own procedure, run on the rows of one family. -/
theorem classify_family (strict : Bool) (w : Word) :
    classify strict w =
      (bestRow strict w (opcodeRows.filter (OpcodeRow.ofFamily (msn w))) none).map OpcodeRow.row := by
  rw [classify, bestRow_filter _ fun r hr => OpcodeRow.ofFamily_of_isMatch hr]

/-! ### The rows by what they compare -/

/-- A row that compares the whole word, one of family 0. -/
def wordRow (k : Nat) (addr : Addr12) : OpcodeRow := plainRow k (packNNN 0x0 addr) 0xFFFF 2

/-- A row that compares `msn` alone. -/
def msnRow (k : Nat) (m : BitVec 4) : OpcodeRow := plainRow k (packNNN m 0) 0xF000 1

/-- A row that compares `msn` and `n`. -/
def nRow (k : Nat) (m : BitVec 4) (n : Nibble) : OpcodeRow := plainRow k (packXYN m 0 0 n) 0xF00F 1

/-- A row that compares `msn` and `kk`. -/
def kkRow (k : Nat) (m : BitVec 4) (kk : Byte) : OpcodeRow := plainRow k (packXKK m 0 kk) 0xF0FF 1

/-- A row that compares `msn`, and under `STRICT_XY0` also `n` with 0. -/
def xy0Row (k : Nat) (m : BitVec 4) : OpcodeRow :=
  { row := k, pattern := packNNN m 0, mask := 0xF000, maskStrict := 0xF00F, priority := 1 }

/-- The last row, which compares nothing. -/
def unknownRow : OpcodeRow := plainRow 36 0 0 0

theorem and_F000 (w : Word) (m : BitVec 4) : w &&& 0xF000 = packNNN m 0 ↔ msn w = m := by
  conv_lhs => rw [← packNNN_fields w]
  exact (Laws.packNNN_mask (msn w) (fieldAddr w)).symm ▸ packNNN_inj.trans (and_iff_left rfl)

theorem and_F00F (w : Word) (m : BitVec 4) (n : Nibble) :
    w &&& 0xF00F = packXYN m 0 0 n ↔ msn w = m ∧ fieldN w = n := by
  conv_lhs => rw [← packXYN_fields w]
  exact (Laws.packXYN_mask (msn w) (fieldX w) (fieldY w) (fieldN w)).symm ▸
    packXYN_inj.trans (by simp)

theorem and_F0FF (w : Word) (m : BitVec 4) (kk : Byte) :
    w &&& 0xF0FF = packXKK m 0 kk ↔ msn w = m ∧ fieldKK w = kk := by
  conv_lhs => rw [← packXKK_fields w]
  exact (Laws.packXKK_mask (msn w) (fieldX w) (fieldKK w)).symm ▸ packXKK_inj.trans (by simp)

section
variable (strict : Bool) (w : Word)

theorem plainRow_isMatch {k p : Nat} {pattern mask : Word} :
    (plainRow k pattern mask p).isMatch strict w = true ↔ w &&& mask = pattern := by
  simp [OpcodeRow.isMatch, plainRow]

@[simp] theorem wordRow_isMatch (k : Nat) (addr : Addr12) :
    (wordRow k addr).isMatch strict w = true ↔ msn w = 0x0 ∧ fieldAddr w = addr := by
  have hall : w &&& 0xFFFF = packNNN (msn w) (fieldAddr w) := by
    rw [packNNN_fields]; exact BitVec.and_allOnes
  rw [wordRow, plainRow_isMatch, hall, packNNN_inj]

@[simp] theorem msnRow_isMatch (k : Nat) (m : BitVec 4) :
    (msnRow k m).isMatch strict w = true ↔ msn w = m :=
  (plainRow_isMatch strict w).trans (and_F000 w m)

@[simp] theorem nRow_isMatch (k : Nat) (m : BitVec 4) (n : Nibble) :
    (nRow k m n).isMatch strict w = true ↔ msn w = m ∧ fieldN w = n :=
  (plainRow_isMatch strict w).trans (and_F00F w m n)

@[simp] theorem kkRow_isMatch (k : Nat) (m : BitVec 4) (kk : Byte) :
    (kkRow k m kk).isMatch strict w = true ↔ msn w = m ∧ fieldKK w = kk :=
  (plainRow_isMatch strict w).trans (and_F0FF w m kk)

@[simp] theorem xy0Row_isMatch (k : Nat) (m : BitVec 4) :
    (xy0Row k m).isMatch strict w = true ↔ msn w = m ∧ (strict = true → fieldN w = 0) := by
  cases strict with
  | false => exact (msnRow_isMatch false w k m).trans (by simp)
  | true =>
    have hpattern : packNNN m 0 = packXYN m 0 0 0 := by revert m; decide
    have hrow : (xy0Row k m).isMatch true w = true ↔ w &&& 0xF00F = packNNN m 0 := beq_iff_eq
    rw [hrow, hpattern, and_F00F]
    simp

@[simp] theorem unknownRow_isMatch : unknownRow.isMatch strict w = true :=
  (plainRow_isMatch strict w).2 BitVec.and_zero

@[simp] theorem wordRow_row (k : Nat) (addr : Addr12) : (wordRow k addr).row = k := rfl
@[simp] theorem msnRow_row (k : Nat) (m : BitVec 4) : (msnRow k m).row = k := rfl
@[simp] theorem nRow_row (k : Nat) (m : BitVec 4) (n : Nibble) : (nRow k m n).row = k := rfl
@[simp] theorem kkRow_row (k : Nat) (m : BitVec 4) (kk : Byte) : (kkRow k m kk).row = k := rfl
@[simp] theorem xy0Row_row (k : Nat) (m : BitVec 4) : (xy0Row k m).row = k := rfl
@[simp] theorem unknownRow_row : unknownRow.row = 36 := rfl

@[simp] theorem wordRow_priority (k : Nat) (addr : Addr12) : (wordRow k addr).priority = 2 := rfl
@[simp] theorem msnRow_priority (k : Nat) (m : BitVec 4) : (msnRow k m).priority = 1 := rfl
@[simp] theorem nRow_priority (k : Nat) (m : BitVec 4) (n : Nibble) : (nRow k m n).priority = 1 := rfl
@[simp] theorem kkRow_priority (k : Nat) (m : BitVec 4) (kk : Byte) : (kkRow k m kk).priority = 1 := rfl
@[simp] theorem xy0Row_priority (k : Nat) (m : BitVec 4) : (xy0Row k m).priority = 1 := rfl
@[simp] theorem unknownRow_priority : unknownRow.priority = 0 := rfl

end

/-! ### The procedure on the rows of one family -/

section
variable {strict : Bool} {w : Word}

/-- The table answers the row of the instruction (R96). -/
def TableAnswers (strict : Bool) (w : Word) (i : Instr) : Prop := classify strict w = some i.row

/-- A family of one operation. -/
theorem tableAnswers_of_msnRow {i : Instr}
    (hrows : opcodeRows.filter (OpcodeRow.ofFamily (msn w)) = [msnRow i.row (msn w), unknownRow]) :
    TableAnswers strict w i := by
  rw [TableAnswers, classify_family, hrows]
  simp [bestRow]

/-- R88: families 5 and 9. -/
theorem tableAnswers_xy0 {k : Nat} {op : Reg → Reg → Nibble → Instr}
    (hop : ∀ x y n, (op x y n).row = k)
    (hrows : opcodeRows.filter (OpcodeRow.ofFamily (msn w)) = [xy0Row k (msn w), unknownRow]) :
    TableAnswers strict w (decodeXY0 strict op w) := by
  rw [TableAnswers, classify_family, hrows]
  cases strict with
  | false => simp [bestRow, decodeXY0, hop]
  | true =>
    have hunknown : (Instr.unknown w).row = 36 := rfl
    by_cases hn : fieldN w = 0 <;> simp [bestRow, decodeXY0, hn, hop, hunknown]

/-- R86: the two fixed words outrank `SYS`. -/
theorem tableAnswers_family0 (h : msn w = 0x0) : TableAnswers strict w (decodeFamily0 w) := by
  have hrows : opcodeRows.filter (OpcodeRow.ofFamily 0x0) =
    [wordRow 1 0x0E0, wordRow 2 0x0EE, msnRow 3 0x0, unknownRow] := rfl
  rw [TableAnswers, classify_family, h, hrows, decodeFamily0]
  by_cases hcls : fieldAddr w = 0x0E0#12
  · simp [bestRow, h, hcls, Instr.row]
  · by_cases hret : fieldAddr w = 0x0EE#12 <;> simp [bestRow, h, hcls, hret, Instr.row]

theorem tableAnswers_family8 (h : msn w = 0x8) : TableAnswers strict w (decodeFamily8 w) := by
  have hrows : opcodeRows.filter (OpcodeRow.ofFamily 0x8) =
    [nRow 12 0x8 0x0, nRow 13 0x8 0x1, nRow 14 0x8 0x2, nRow 15 0x8 0x3, nRow 16 0x8 0x4,
      nRow 17 0x8 0x5, nRow 18 0x8 0x6, nRow 19 0x8 0x7, nRow 20 0x8 0xE, unknownRow] := rfl
  have hclass := classify_family strict w
  rw [h, hrows] at hclass
  iterate 9 refine iteInduction (fun hn => hclass.trans (by simp [bestRow, h, hn, Instr.row])) fun hn => ?_
  exact hclass.trans (by simp_all [bestRow, Instr.row])

theorem tableAnswers_familyE (h : msn w = 0xE) : TableAnswers strict w (decodeFamilyE w) := by
  have hrows : opcodeRows.filter (OpcodeRow.ofFamily 0xE) =
    [kkRow 25 0xE 0x9E, kkRow 26 0xE 0xA1, unknownRow] := rfl
  have hclass := classify_family strict w
  rw [h, hrows] at hclass
  iterate 2 refine iteInduction (fun hk => hclass.trans (by simp [bestRow, h, hk, Instr.row])) fun hk => ?_
  exact hclass.trans (by simp_all [bestRow, Instr.row])

theorem tableAnswers_familyF (h : msn w = 0xF) : TableAnswers strict w (decodeFamilyF w) := by
  have hrows : opcodeRows.filter (OpcodeRow.ofFamily 0xF) =
    [kkRow 27 0xF 0x07, kkRow 28 0xF 0x15, kkRow 29 0xF 0x18, kkRow 30 0xF 0x0A, kkRow 31 0xF 0x1E,
      kkRow 32 0xF 0x29, kkRow 33 0xF 0x33, kkRow 34 0xF 0x55, kkRow 35 0xF 0x65, unknownRow] := rfl
  have hclass := classify_family strict w
  rw [h, hrows] at hclass
  iterate 9 refine iteInduction (fun hk => hclass.trans (by simp [bestRow, h, hk, Instr.row])) fun hk => ?_
  exact hclass.trans (by simp_all [bestRow, Instr.row])

end

/-- Settles O3, family by family. -/
theorem decoderFollowsOpcodeTable : Obligations.DecoderFollowsOpcodeTable := by
  intro strict w
  show TableAnswers strict w (decode strict w)
  rw [decode_msn]
  rcases msn_cases w with h | h | h | h | h | h | h | h | h | h | h | h | h | h | h | h <;>
    simp only [h, reduceIte, BitVec.reduceEq]
  · exact tableAnswers_family0 h
  · exact tableAnswers_of_msnRow (h.symm ▸ rfl)
  · exact tableAnswers_of_msnRow (h.symm ▸ rfl)
  · exact tableAnswers_of_msnRow (h.symm ▸ rfl)
  · exact tableAnswers_of_msnRow (h.symm ▸ rfl)
  · exact tableAnswers_xy0 (fun _ _ _ => rfl) (h.symm ▸ rfl)
  · exact tableAnswers_of_msnRow (h.symm ▸ rfl)
  · exact tableAnswers_of_msnRow (h.symm ▸ rfl)
  · exact tableAnswers_family8 h
  · exact tableAnswers_xy0 (fun _ _ _ => rfl) (h.symm ▸ rfl)
  · exact tableAnswers_of_msnRow (h.symm ▸ rfl)
  · exact tableAnswers_of_msnRow (h.symm ▸ rfl)
  · exact tableAnswers_of_msnRow (h.symm ▸ rfl)
  · exact tableAnswers_of_msnRow (h.symm ▸ rfl)
  · exact tableAnswers_familyE h
  · exact tableAnswers_familyF h

/-- Settles O4: each word lies in the family of its first digit, and the decoder is run on it. -/
theorem sampleWordsDecode : Obligations.SampleWordsDecode := by
  unfold Obligations.SampleWordsDecode
  decide

end Sys2Proof
end

section
/-! SUPPORT. What an execution answers, said once for every instruction: the fault of its row in the table of
R192, or its completion; and which parts of the state a completion may change. -/

namespace Sys2Proof.Machine

open Sys2Proof Sys2Proof.Claims

/-! ## The completion of an instruction -/

/-- The state an instruction that does not fault leaves. -/
def completed (i : Instr) (s : State) : State :=
  match i with
  | .cls => { s with fb := Vector.replicate 32 0 }
  | .ret => if h : s.sp.toNat < 16 then s.popFrom ⟨s.sp.toNat, h⟩ else s
  | .sys _ => s
  | .jp addr => s.setPC (zextAddr addr)
  | .call addr =>
    if h : s.sp.toNat < 15 then
      (s.pushAt ⟨s.sp.toNat + 1, Nat.succ_lt_succ h⟩ s.pc).setPC (zextAddr addr)
    else s
  | .seImm x kk => s.skipIf (s.getV x == kk)
  | .sneImm x kk => s.skipIf (s.getV x != kk)
  | .seReg x y _ => s.skipIf (s.getV x == s.getV y)
  | .sneReg x y _ => s.skipIf (s.getV x != s.getV y)
  | .ldImm x kk => s.setV x kk
  | .addImm x kk => s.setV x (s.getV x + kk)
  | .ldReg x y => s.setV x (s.getV y)
  | .orReg x y => s.setV x (s.getV x ||| s.getV y)
  | .andReg x y => s.setV x (s.getV x &&& s.getV y)
  | .xorReg x y => s.setV x (s.getV x ^^^ s.getV y)
  | .addReg x y =>
    s.setFlagThenV (flagByte (carryFlag (s.getV x) (s.getV y))) x (s.getV x + s.getV y)
  | .subReg x y =>
    s.setFlagThenV (flagByte (noBorrowFlag (s.getV x) (s.getV y))) x (s.getV x - s.getV y)
  | .shr x _ => s.setFlagThenV (flagByte (lowBitFlag (s.getV x))) x (s.getV x >>> 1)
  | .subn x y =>
    s.setFlagThenV (flagByte (noBorrowFlag (s.getV y) (s.getV x))) x
      (if s.cfg.subnCanonical then s.getV y - s.getV x else s.getV x - s.getV y)
  | .shl x _ => s.setFlagThenV (flagByte (highBitFlag (s.getV x))) x (s.getV x <<< 1)
  | .ldI addr => s.setI (zextAddr addr)
  | .jpV0 addr => s.setPC (zextAddr addr + zextByte (s.getV 0))
  | .rnd x kk => s.setV x (s.rnd &&& kk)
  | .drw x y n => s.drawSprite x y (s.bytesAt s.base n.val)
  | .skp x => s.skipIf (s.keyDown (s.getV x).toNat == true)
  | .sknp x => s.skipIf (s.keyDown (s.getV x).toNat == false)
  | .ldVxDT x => s.setV x s.dt
  | .ldDTVx x => s.setDT (s.getV x)
  | .ldSTVx x => s.setST (s.getV x)
  | .ldVxK x =>
    match s.scanKeys with
    | some k => s.setV x (BitVec.ofNat 8 k)
    | none => s
  | .addI x => s.setI (s.i + zextByte (s.getV x))
  | .ldF x => s.setI (glyphAddress s.cfg.fontBase.val (s.getV x))
  | .ldB x => s.writeBytes s.base (bcdDigits (s.getV x))
  | .stRegs x => s.writeBytes s.base (s.regsUpTo x)
  | .ldRegs x => s.setVFrom 0 (s.bytesAt s.base (x.val + 1))
  | .unknown w => s.emit (.unknownLog w (s.pc - 2))

theorem completed_ret {s : State} (h : s.sp.toNat < 16) :
    completed .ret s = s.popFrom ⟨s.sp.toNat, h⟩ := dif_pos h

theorem completed_call (addr : Addr12) {s : State} (h : s.sp.toNat < 15) :
    completed (.call addr) s =
      (s.pushAt ⟨s.sp.toNat + 1, Nat.succ_lt_succ h⟩ s.pc).setPC (zextAddr addr) := dif_pos h

theorem completed_ret_noSlot {s : State} (h : ¬ s.sp.toNat < 16) : completed .ret s = s := dif_neg h

theorem completed_call_noSlot (addr : Addr12) {s : State} (h : ¬ s.sp.toNat < 15) :
    completed (.call addr) s = s := dif_neg h

theorem completed_ldVxK_of_some {x : Reg} {s : State} {k : Nat} (h : s.scanKeys = some k) :
    completed (.ldVxK x) s = s.setV x (BitVec.ofNat 8 k) := by
  simp only [completed, h]

theorem completed_ldVxK_of_none {x : Reg} {s : State} (h : s.scanKeys = none) :
    completed (.ldVxK x) s = s := by
  simp only [completed, h]

/-! ## The table of faults, row by row (R192) -/

theorem faultOf_drw (x y : Reg) (n : Nibble) (s : State) :
    faultOf (.drw x y n) s = if n.val > 0 ∧ s.i.toNat + n.val - 1 > 4095 then
      some (.memReadOob, max s.i.toNat 4096) else none := rfl

theorem faultOf_ldRegs (x : Reg) (s : State) :
    faultOf (.ldRegs x) s = if s.i.toNat + x.val > 4095 then
      some (.memReadOob, max s.i.toNat 4096) else none := rfl

theorem faultOf_ldB (x : Reg) (s : State) :
    faultOf (.ldB x) s = if s.i.toNat + 2 > 4095 then
      some (.memWriteOob, max s.i.toNat 4096) else none := rfl

theorem faultOf_stRegs (x : Reg) (s : State) :
    faultOf (.stRegs x) s = if s.i.toNat + x.val > 4095 then
      some (.memWriteOob, max s.i.toNat 4096) else none := rfl

theorem faultOf_call (addr : Addr12) (s : State) :
    faultOf (.call addr) s = if s.sp.toNat ≥ 15 then
      some (.stackOverflow, s.sp.toNat + 1) else none := rfl

theorem faultOf_ret (s : State) :
    faultOf .ret s = if s.sp.toNat = 0 then some (.stackUnderflow, 0) else none := rfl

theorem faultOf_skp (x : Reg) (s : State) :
    faultOf (.skp x) s = if (s.getV x).toNat > 15 then
      some (.keyIndexOob, (s.getV x).toNat) else none := rfl

theorem faultOf_sknp (x : Reg) (s : State) :
    faultOf (.sknp x) s = if (s.getV x).toNat > 15 then
      some (.keyIndexOob, (s.getV x).toNat) else none := rfl

theorem faultOf_ldB_none {x : Reg} {s : State} :
    faultOf (.ldB x) s = none ↔ s.i.toNat + 2 ≤ 4095 := by simp [faultOf_ldB]

theorem faultOf_stRegs_none {x : Reg} {s : State} :
    faultOf (.stRegs x) s = none ↔ s.i.toNat + x.val ≤ 4095 := by simp [faultOf_stRegs]

theorem faultOf_call_none {addr : Addr12} {s : State} :
    faultOf (.call addr) s = none ↔ s.sp.toNat < 15 := by simp [faultOf_call]

theorem faultOf_ret_none {s : State} : faultOf .ret s = none ↔ s.sp.toNat ≠ 0 := by
  simp [faultOf_ret]

/-- R193: a fetch fault is no instruction's. -/
theorem faultOf_kind {i : Instr} {s : State} {kind : FaultKind} {addr : Nat}
    (h : faultOf i s = some (kind, addr)) : kind ≠ .fetchOob := by
  cases i with
  | drw _ _ _ | ldRegs _ | ldB _ | stRegs _ | call _ | ret | skp _ | sknp _ =>
    simp only [faultOf_drw, faultOf_ldRegs, faultOf_ldB, faultOf_stRegs, faultOf_call, faultOf_ret,
      faultOf_skp, faultOf_sknp] at h
    split at h
    · cases h; decide
    · cases h
  | _ => cases h

/-! ## `exec` answers by the table -/

/-- The answer of an instruction, by the table of R192. -/
def answer (i : Instr) (s : State) : Result :=
  match faultOf i s with
  | some (kind, addr) => raise i kind addr s
  | none => .next (completed i s)

theorem answer_of_fault {i : Instr} {s : State} {kind : FaultKind} {addr : Nat}
    (h : faultOf i s = some (kind, addr)) : answer i s = raise i kind addr s := by
  rw [answer, h]

theorem answer_of_none {i : Instr} {s : State} (h : faultOf i s = none) :
    answer i s = .next (completed i s) := by
  rw [answer, h]

theorem execCall_answer (addr : Addr12) (s : State) : execCall addr s = answer (.call addr) s := by
  by_cases h : s.sp.toNat < 15
  · rw [answer_of_none (faultOf_call_none.2 h), completed_call addr h, execCall,
      dif_pos h]
  · rw [answer_of_fault (by rw [faultOf_call, if_pos (by omega)]), execCall, dif_neg h]

theorem execRet_answer {s : State} (h : s.sp.toNat ≤ 15) : execRet s = answer .ret s := by
  by_cases h0 : s.sp = 0
  · rw [answer_of_fault (by rw [faultOf_ret, if_pos (by rw [h0]; rfl)]), execRet, if_pos h0]
  · have hpos : s.sp.toNat ≠ 0 := fun h => h0 (BitVec.eq_of_toNat_eq h)
    have hslot : s.sp.toNat < 16 := by omega
    rw [answer_of_none (faultOf_ret_none.2 hpos), completed_ret hslot, execRet, if_neg h0,
      dif_pos hslot]

theorem execDrw_answer (x y : Reg) (n : Nibble) (s : State) :
    execDrw x y n s = answer (.drw x y n) s := by
  by_cases h : n.val > 0 ∧ s.i.toNat + n.val - 1 > 4095
  · rw [answer_of_fault ((faultOf_drw x y n s).trans (if_pos h)), execDrw,
      s.spriteRows_error n (by omega) (by unfold State.base; omega)]
    rfl
  · rw [answer_of_none ((faultOf_drw x y n s).trans (if_neg h)), execDrw,
      s.spriteRows_ok n (by unfold State.base; omega)]
    rfl

theorem execLdB_answer (x : Reg) (s : State) : execLdB x s = answer (.ldB x) s := by
  have hlen : (bcdDigits (s.getV x)).length = 3 := rfl
  by_cases h : s.i.toNat + 2 > 4095
  · rw [answer_of_fault ((faultOf_ldB x s).trans (if_pos h)), execLdB,
      s.memWrite_outside (by rw [hlen]; unfold State.base; omega)]
    rfl
  · rw [answer_of_none ((faultOf_ldB x s).trans (if_neg h)), execLdB,
      s.memWrite_inside (by rw [hlen]; unfold State.base; omega)]
    rfl

theorem execStRegs_answer (x : Reg) (s : State) : execStRegs x s = answer (.stRegs x) s := by
  have hlen := s.regsUpTo_length x
  by_cases h : s.i.toNat + x.val > 4095
  · rw [answer_of_fault ((faultOf_stRegs x s).trans (if_pos h)), execStRegs,
      s.memWrite_outside (by rw [hlen]; unfold State.base; omega)]
    rfl
  · rw [answer_of_none ((faultOf_stRegs x s).trans (if_neg h)), execStRegs,
      s.memWrite_inside (by rw [hlen]; unfold State.base; omega)]
    rfl

theorem execLdRegs_answer (x : Reg) (s : State) : execLdRegs x s = answer (.ldRegs x) s := by
  by_cases h : s.i.toNat + x.val > 4095
  · rw [answer_of_fault ((faultOf_ldRegs x s).trans (if_pos h)), execLdRegs,
      s.memRead_outside (by unfold State.base; omega)]
    rfl
  · rw [answer_of_none ((faultOf_ldRegs x s).trans (if_neg h)), execLdRegs,
      s.memRead_inside (by unfold State.base; omega)]
    rfl

theorem execSkp_answer (x : Reg) (s : State) : execSkp x s = answer (.skp x) s := by
  by_cases h : (s.getV x).toNat > 15
  · rw [answer_of_fault ((faultOf_skp x s).trans (if_pos h)), execSkp, keySkip, if_pos h]
  · rw [answer_of_none ((faultOf_skp x s).trans (if_neg h)), execSkp, keySkip, if_neg h]
    rfl

theorem execSknp_answer (x : Reg) (s : State) : execSknp x s = answer (.sknp x) s := by
  by_cases h : (s.getV x).toNat > 15
  · rw [answer_of_fault ((faultOf_sknp x s).trans (if_pos h)), execSknp, keySkip, if_pos h]
  · rw [answer_of_none ((faultOf_sknp x s).trans (if_neg h)), execSknp, keySkip, if_neg h]
    rfl

/-- Every instruction but a `RET` with an `SP` that R24 rules out. -/
theorem exec_eq_answer {i : Instr} {s : State} (h : i = .ret → s.sp.toNat ≤ 15) :
    exec i s = answer i s := by
  cases i with
  | ret => exact execRet_answer (h rfl)
  | call addr => exact execCall_answer addr s
  | drw x y n => exact execDrw_answer x y n s
  | skp x => exact execSkp_answer x s
  | sknp x => exact execSknp_answer x s
  | ldB x => exact execLdB_answer x s
  | stRegs x => exact execStRegs_answer x s
  | ldRegs x => exact execLdRegs_answer x s
  | _ => rfl

/-- The `RET` that R24 rules out. -/
theorem execRet_absent {s : State} (h : 15 < s.sp.toNat) :
    exec .ret s = .fault (.stackSlotAbsent s.sp.toNat) := by
  have hzero : ¬ s.sp = 0 := by rintro h0; simp [h0] at h
  show execRet s = _
  rw [execRet, if_neg hzero, dif_neg (by omega)]

/-- R24: a `RET` that answers a next state had a slot to pop or none at all. -/
theorem legalSP_of_exec_next {i : Instr} {s t : State} (h : exec i s = .next t) :
    i = .ret → s.sp.toNat ≤ 15 := by
  rintro rfl
  by_contra hsp
  rw [execRet_absent (by omega)] at h
  cases h

/-- What a next state answered by an execution is. -/
theorem exec_next_answer {i : Instr} {s t : State} (h : exec i s = .next t) :
    faultOf i s = none ∧ t = completed i s ∨
    ∃ kind addr, faultOf i s = some (kind, addr) ∧
      t = s.takeFault { kind := kind, addr := addr, word := some (encode i), pc0 := s.pc - 2 } := by
  rw [exec_eq_answer (legalSP_of_exec_next h)] at h
  cases hf : faultOf i s with
  | none => rw [answer_of_none hf] at h; cases h; exact .inl ⟨rfl, rfl⟩
  | some f => rw [answer_of_fault hf] at h; cases h; exact .inr ⟨f.1, f.2, rfl, rfl⟩

theorem exec_completes {i : Instr} {s : State} (h : i = .ret → s.sp.toNat ≤ 15)
    (hf : faultOf i s = none) : exec i s = .next (completed i s) := by
  rw [exec_eq_answer h, answer_of_none hf]

theorem exec_faults {i : Instr} {s : State} {kind : FaultKind} {addr : Nat}
    (hf : faultOf i s = some (kind, addr)) : exec i s = raise i kind addr s := by
  have hsp : i = .ret → s.sp.toNat ≤ 15 := by
    rintro rfl
    by_contra hsp
    rw [faultOf_ret, if_neg (by omega)] at hf
    cases hf
  rw [exec_eq_answer hsp, answer_of_fault hf]

/-! ## The footprint of a completion -/

/-- R23 and the rules of spec/40 to spec/44: the parts of the state that the completion may change. -/
def footprint (i : Instr) (s : State) (p : Part) : Prop :=
  match i with
  | .sys _ => False
  | .unknown _ => p = .out
  | .cls => ∃ q, p = .fb q
  | .drw x y n => p = .v 15 ∨ p = .fbDirty ∨ ∃ q, p = .fb q ∧ SpriteOn s x y n q
  | .ret => p = .pc ∨ p = .sp
  | .call _ => p = .pc ∨ p = .sp ∨ ∃ h, p = .stack ⟨s.sp.toNat + 1, h⟩
  | .jp _ | .jpV0 _ | .seImm _ _ | .sneImm _ _ | .seReg _ _ _ | .sneReg _ _ _ | .skp _ | .sknp _ =>
    p = .pc
  | .ldImm x _ | .addImm x _ | .ldReg x _ | .orReg x _ | .andReg x _ | .xorReg x _ | .rnd x _
  | .ldVxDT x | .ldVxK x => p = .v x
  | .addReg x _ | .subReg x _ | .shr x _ | .subn x _ | .shl x _ => p = .v x ∨ p = .v 15
  | .ldRegs x => ∃ r, p = .v r ∧ r ≤ x
  | .ldI _ | .addI _ | .ldF _ => p = .i
  | .ldDTVx _ => p = .dt
  | .ldSTVx _ => p = .st
  | .ldB _ => ∃ a, p = .mem a ∧ s.i.toNat ≤ a ∧ a ≤ s.i.toNat + 2
  | .stRegs x => ∃ a, p = .mem a ∧ s.i.toNat ≤ a ∧ a ≤ s.i.toNat + x.val

/-- R150: the pixels under the sprite, by the bytes that `DRW` reads. -/
theorem covered_iff_spriteOn (s : State) (x y : Reg) (n : Nibble) (p : Nat) :
    Covered (s.getV x).toNat (s.getV y).toNat 0 (s.bytesAt s.base n.val) p ↔ SpriteOn s x y n p := by
  constructor
  · rintro ⟨r, hr, c, hc, hbit, hp⟩
    rw [State.bytesAt_get] at hbit
    rw [State.bytesAt_length] at hr
    exact ⟨r, c, hr, hc, hbit, by rw [hp, Nat.zero_add]; rfl⟩
  · rintro ⟨r, c, hr, hc, hbit, hp⟩
    refine ⟨r, by rwa [State.bytesAt_length], c, hc, ?_, by rw [hp, Nat.zero_add]; rfl⟩
    rw [State.bytesAt_get]
    exact hbit

theorem completed_cls_keeps (s : State) :
    KeepsExcept (footprint .cls s) s (completed .cls s) := by
  intro p hp
  cases p with
  | fb q => exact absurd ⟨q, rfl⟩ hp
  | _ => rfl

theorem completed_ret_keeps (s : State) :
    KeepsExcept (footprint .ret s) s (completed .ret s) := by
  by_cases h : s.sp.toNat < 16
  · rw [completed_ret h]
    exact s.popFrom_keeps _
  · rw [completed_ret_noSlot h]
    exact KeepsExcept.refl s

theorem KeepsExcept.trans {W : Part → Prop} {s t u : State} (h₁ : KeepsExcept W s t)
    (h₂ : KeepsExcept W t u) : KeepsExcept W s u := by
  intro p hp
  have hst := h₁ p hp
  have htu := h₂ p hp
  cases p <;> exact htu.trans hst

theorem completed_call_keeps (addr : Addr12) (s : State) :
    KeepsExcept (footprint (.call addr) s) s (completed (.call addr) s) := by
  by_cases h : s.sp.toNat < 15
  · rw [completed_call addr h]
    refine ((s.pushAt_keeps ⟨_, Nat.succ_lt_succ h⟩ s.pc).mono ?_).trans
      ((State.setPC_keeps _ _).mono fun p hp => Or.inl hp)
    rintro p (rfl | rfl)
    · exact .inr (.inl rfl)
    · exact .inr (.inr ⟨_, rfl⟩)
  · rw [completed_call_noSlot addr h]
    exact KeepsExcept.refl s

theorem completed_drw_keeps (x y : Reg) (n : Nibble) (s : State) :
    KeepsExcept (footprint (.drw x y n) s) s (completed (.drw x y n) s) := by
  refine (s.drawSprite_keeps x y _ ?_).mono ?_
  · rw [State.bytesAt_length]; omega
  · simp only [covered_iff_spriteOn]
    exact fun p hp => hp

theorem completed_ldVxK_keeps (x : Reg) (s : State) :
    KeepsExcept (footprint (.ldVxK x) s) s (completed (.ldVxK x) s) := by
  cases h : s.scanKeys with
  | some k =>
    rw [completed_ldVxK_of_some h]
    exact s.setV_keeps x _
  | none =>
    rw [completed_ldVxK_of_none h]
    exact KeepsExcept.refl s

theorem completed_ldRegs_keeps (x : Reg) (s : State) :
    KeepsExcept (footprint (.ldRegs x) s) s (completed (.ldRegs x) s) := by
  have hlen := s.bytesAt_length s.base (x.val + 1)
  refine (s.setVFrom_keeps 0 _ (by rw [hlen]; omega)).mono ?_
  rintro p ⟨r, rfl, -, hr⟩
  exact ⟨r, rfl, Fin.le_def.2 (by omega)⟩

theorem completed_ldB_keeps (x : Reg) (s : State) :
    KeepsExcept (footprint (.ldB x) s) s (completed (.ldB x) s) := by
  refine (s.writeBytes_keeps s.base _).mono ?_
  rintro p ⟨a, rfl, hlow, hhigh⟩
  exact ⟨a, rfl, hlow, Nat.le_of_lt_succ hhigh⟩

theorem completed_stRegs_keeps (x : Reg) (s : State) :
    KeepsExcept (footprint (.stRegs x) s) s (completed (.stRegs x) s) := by
  refine (s.writeBytes_keeps s.base _).mono ?_
  rintro p ⟨a, rfl, hlow, hhigh⟩
  rw [State.regsUpTo_length] at hhigh
  exact ⟨a, rfl, hlow, Nat.le_of_lt_succ hhigh⟩

/-- A completion changes nothing outside its footprint. -/
theorem completed_keeps (i : Instr) (s : State) : KeepsExcept (footprint i s) s (completed i s) := by
  cases i with
  | sys _ => exact KeepsExcept.refl s
  | unknown _ => exact s.emit_keeps _
  | cls => exact completed_cls_keeps s
  | drw x y n => exact completed_drw_keeps x y n s
  | ret => exact completed_ret_keeps s
  | call addr => exact completed_call_keeps addr s
  | jp _ | jpV0 _ => exact s.setPC_keeps _
  | seImm _ _ | sneImm _ _ | seReg _ _ _ | sneReg _ _ _ | skp _ | sknp _ => exact s.skipIf_keeps _
  | ldImm _ _ | addImm _ _ | ldReg _ _ | orReg _ _ | andReg _ _ | xorReg _ _ | rnd _ _ | ldVxDT _ =>
    exact s.setV_keeps _ _
  | ldVxK x => exact completed_ldVxK_keeps x s
  | addReg _ _ | subReg _ _ | shr _ _ | subn _ _ | shl _ _ => exact s.setFlagThenV_keeps _ _ _
  | ldRegs x => exact completed_ldRegs_keeps x s
  | ldI _ | addI _ | ldF _ => exact s.setI_keeps _
  | ldDTVx _ => exact s.setDT_keeps _
  | ldSTVx _ => exact s.setST_keeps _
  | ldB x => exact completed_ldB_keeps x s
  | stRegs x => exact completed_stRegs_keeps x s

/-- A part that an execution has changed lies in the footprint, or is one of the three that a fault
changes. -/
theorem exec_changes {i : Instr} {s t : State} {p : Part} (h : exec i s = .next t)
    (hp : ¬ Part.Same s t p) :
    footprint i s p ∨ (p = .fault ∨ p = .run ∨ p = .frame) ∧ t.fault ≠ none ∧ t.run = .idle := by
  rcases exec_next_answer h with ⟨-, rfl⟩ | ⟨kind, addr, -, rfl⟩
  · exact .inl (by_contra fun hf => hp (completed_keeps i s p hf))
  · refine .inr ⟨by_contra fun hf => hp (s.takeFault_keeps _ p hf), ?_, rfl⟩
    cases hs : s.fault <;> simp [hs]

end Sys2Proof.Machine
end

section
/-! SUPPORT. Rules about every instruction that follow from the answers and the footprints: who writes `VF`
(R21), who changes which state (R35, R62), and the table of faults (R192). -/

namespace Sys2Proof.Machine

open Sys2Proof Sys2Proof.Claims

theorem writesVF_of_footprint {i : Instr} {s : State} (h : footprint i s (.v 15)) :
    writesVF i = true := by
  cases i with
  | ldRegs x =>
    obtain ⟨r, hr, hle⟩ := h
    cases hr
    exact beq_iff_eq.2 (Fin.le_antisymm (Fin.le_last x) hle)
  | _ => simp_all [footprint, writesVF]

/-- Settles O21: `VF` lies in the footprint of no other instruction. -/
theorem onlyListedInstructionsWriteVF : Obligations.OnlyListedInstructionsWriteVF := by
  intro i s t h hVF
  rcases exec_changes (p := .v 15) h hVF with hf | ⟨hp | hp | hp, -⟩
  · exact writesVF_of_footprint hf
  all_goals cases hp

/-! ### Whose footprint a part lies in (R35, R62) -/

theorem mem_footprint {i : Instr} {s : State} {a : Nat} (h : footprint i s (.mem a)) :
    ∃ x, i = .ldB x ∨ i = .stRegs x := by
  cases i with
  | ldB x => exact ⟨x, .inl rfl⟩
  | stRegs x => exact ⟨x, .inr rfl⟩
  | _ => simp [footprint] at h

theorem fb_footprint {i : Instr} {s : State} {q : Nat} (h : footprint i s (.fb q)) :
    i = .cls ∨ ∃ x y n, i = .drw x y n := by
  cases i with
  | cls => exact .inl rfl
  | drw x y n => exact .inr ⟨x, y, n, rfl⟩
  | _ => simp [footprint] at h

theorem fbDirty_footprint {i : Instr} {s : State} (h : footprint i s .fbDirty) :
    ∃ x y n, i = .drw x y n := by
  cases i with
  | drw x y n => exact ⟨x, y, n, rfl⟩
  | _ => simp [footprint] at h

theorem i_footprint {i : Instr} {s : State} (h : footprint i s .i) :
    ∃ x addr, i = .ldI addr ∨ i = .addI x ∨ i = .ldF x := by
  cases i with
  | ldI addr => exact ⟨0, addr, .inl rfl⟩
  | addI x => exact ⟨x, 0, .inr (.inl rfl)⟩
  | ldF x => exact ⟨x, 0, .inr (.inr rfl)⟩
  | _ => simp [footprint] at h

theorem dt_footprint {i : Instr} {s : State} (h : footprint i s .dt) : ∃ x, i = .ldDTVx x := by
  cases i with
  | ldDTVx x => exact ⟨x, rfl⟩
  | _ => simp [footprint] at h

theorem st_footprint {i : Instr} {s : State} (h : footprint i s .st) : ∃ x, i = .ldSTVx x := by
  cases i with
  | ldSTVx x => exact ⟨x, rfl⟩
  | _ => simp [footprint] at h

theorem sp_footprint {i : Instr} {s : State} (h : footprint i s .sp) :
    i = .ret ∨ ∃ addr, i = .call addr := by
  cases i with
  | ret => exact .inl rfl
  | call addr => exact .inr ⟨addr, rfl⟩
  | _ => simp [footprint] at h

theorem stack_footprint {i : Instr} {s : State} {k : Fin 16} (h : footprint i s (.stack k)) :
    ∃ addr, i = .call addr := by
  cases i with
  | call addr => exact ⟨addr, rfl⟩
  | _ => simp [footprint] at h

/-- The parts that lie in no footprint: the sequencer's, the ports, the host's queue, the parameters. -/
def Part.isControl : Part → Bool
  | .run | .toneActive | .fault | .keys | .rnd | .frame | .inbox | .cfg => true
  | _ => false

theorem not_footprint_of_isControl (i : Instr) (s : State) {p : Part} (hp : p.isControl = true) :
    ¬ footprint i s p := by
  intro h
  cases i with
  | sys _ => exact h
  | cls => obtain ⟨q, rfl⟩ := h; cases hp
  | drw _ _ _ => rcases h with rfl | rfl | ⟨q, rfl, -⟩ <;> cases hp
  | call _ => rcases h with rfl | rfl | ⟨_, rfl⟩ <;> cases hp
  | ldRegs _ | ldB _ | stRegs _ => obtain ⟨c, rfl, -⟩ := h; cases hp
  | ret | addReg _ _ | subReg _ _ | shr _ _ | subn _ _ | shl _ _ => rcases h with rfl | rfl <;> cases hp
  | _ => cases h; cases hp

/-- A completion leaves the sequencer's and the host's fields alone. -/
theorem completed_sameControl (i : Instr) (s : State) : SameControl s (completed i s) where
  run := completed_keeps i s .run (not_footprint_of_isControl i s rfl)
  toneActive := completed_keeps i s .toneActive (not_footprint_of_isControl i s rfl)
  fault := completed_keeps i s .fault (not_footprint_of_isControl i s rfl)
  keys := completed_keeps i s .keys (not_footprint_of_isControl i s rfl)
  rnd := completed_keeps i s .rnd (not_footprint_of_isControl i s rfl)
  frame := completed_keeps i s .frame (not_footprint_of_isControl i s rfl)
  inbox := completed_keeps i s .inbox (not_footprint_of_isControl i s rfl)
  cfg := completed_keeps i s .cfg (not_footprint_of_isControl i s rfl)

/-- A part that no fault changes has changed only where it lies in the footprint. -/
theorem footprint_of_exec_changes {i : Instr} {s t : State} {p : Part} (h : exec i s = .next t)
    (hfault : p ≠ .fault ∧ p ≠ .run ∧ p ≠ .frame) (hp : ¬ Part.Same s t p) : footprint i s p :=
  (exec_changes h hp).resolve_right fun ⟨hor, _⟩ =>
    hor.elim hfault.1 fun hor => hor.elim hfault.2.1 hfault.2.2

theorem fault_of_exec_changes {i : Instr} {s t : State} {p : Part} (h : exec i s = .next t)
    (hcontrol : p.isControl = true) (hp : ¬ Part.Same s t p) : t.fault ≠ none ∧ t.run = .idle :=
  ((exec_changes h hp).resolve_left (not_footprint_of_isControl i s hcontrol)).2

theorem exec_keeps_control {i : Instr} {s t : State} (p : Part) (h : exec i s = .next t)
    (hcontrol : p.isControl = true) (hfault : p ≠ .fault ∧ p ≠ .run ∧ p ≠ .frame) :
    Part.Same s t p :=
  by_contra fun hp =>
    not_footprint_of_isControl i s hcontrol (footprint_of_exec_changes h hfault hp)

/-- Settles O22: each part by the instructions whose footprint it lies in. -/
theorem accessMatrix : Obligations.AccessMatrix := by
  intro i s t h
  refine ⟨?mem, ?fb, ?fbDirty, ?i, ?dt, ?st, ?sp, ?stack, ?fault,
    exec_keeps_control .toneActive h rfl (by simp), exec_keeps_control .keys h rfl (by simp),
    exec_keeps_control .rnd h rfl (by simp), exec_keeps_control .inbox h rfl (by simp),
    exec_keeps_control .cfg h rfl (by simp)⟩
  case mem =>
    rintro ⟨a, ha⟩
    exact mem_footprint (footprint_of_exec_changes (p := .mem a) h (by simp) ha)
  case fb =>
    rintro ⟨q, hq⟩
    exact fb_footprint (footprint_of_exec_changes (p := .fb q) h (by simp) hq)
  case fbDirty => exact fun hd => fbDirty_footprint (footprint_of_exec_changes h (by simp) hd)
  case i => exact fun hi => i_footprint (footprint_of_exec_changes (p := .i) h (by simp) hi)
  case dt => exact fun hd => dt_footprint (footprint_of_exec_changes h (by simp) hd)
  case st => exact fun hs => st_footprint (footprint_of_exec_changes h (by simp) hs)
  case sp => exact fun hs => sp_footprint (footprint_of_exec_changes (p := .sp) h (by simp) hs)
  case stack =>
    intro hstack
    have : ∃ k : Fin 16, ¬ Part.Same s t (.stack k) := by
      by_contra hall
      push Not at hall
      exact hstack (Vector.ext fun k hk => hall ⟨k, hk⟩)
    obtain ⟨k, hk⟩ := this
    exact stack_footprint (footprint_of_exec_changes h (by simp) hk)
  case fault =>
    rintro (hrun | hframe | hfault)
    · exact fault_of_exec_changes (p := .run) h rfl hrun
    · exact fault_of_exec_changes (p := .frame) h rfl hframe
    · exact fault_of_exec_changes (p := .fault) h rfl hfault

/-- Settles O23: the answer is read off the table. -/
theorem faultTableIsComplete : Obligations.FaultTableIsComplete := by
  intro i s hnone hsp
  refine ⟨fun kind addr hf => ?_, fun hf => ?_⟩
  · rw [exec_faults hf, raise_eq i kind addr hnone]
  · have same := completed_sameControl i s
    exact ⟨_, exec_completes (fun _ => hsp) hf, same.fault.trans hnone, same.run, same.frame⟩

end Sys2Proof.Machine
end

section
/-! SUPPORT. The inputs of a tick (R38, R39): which instructions read them. -/

namespace Sys2Proof.Machine

open Sys2Proof Sys2Proof.Claims

/-- The state with other values on the two ports. -/
def State.withPorts (s : State) (keys : BitVec 16) (rnd : Byte) : State :=
  { s with keys := keys, rnd := rnd }

/-- R38: the instructions that read the key sample. -/
def readsKeys : Instr → Bool
  | .skp _ | .sknp _ | .ldVxK _ => true
  | _ => false

/-- R39: the instruction that reads the random byte. -/
def readsRnd : Instr → Bool
  | .rnd _ _ => true
  | _ => false

theorem State.bytesAt_withPorts (s : State) (k : BitVec 16) (b : Byte) (a n : Nat) :
    (s.withPorts k b).bytesAt a n = s.bytesAt a n :=
  State.bytesAt_congr (s := s) (t := s.withPorts k b) rfl rfl a n

theorem State.skipIf_withPorts (s : State) (k : BitVec 16) (b : Byte) (c : Bool) :
    (s.withPorts k b).skipIf c = (s.skipIf c).withPorts k b := by cases c <;> rfl

theorem State.setVFrom_withPorts (s : State) (k : BitVec 16) (b : Byte) (r : Nat) (bs : List Byte) :
    (s.withPorts k b).setVFrom r bs = (s.setVFrom r bs).withPorts k b := by
  induction bs generalizing s r with
  | nil => rfl
  | cons c bs ih =>
    unfold State.setVFrom
    split
    · exact ih (s.setV _ c) (r + 1)
    · rfl

/-- A key scan reads the key sample alone. -/
theorem State.firstKeyFrom_congr {s t : State} (h : t.keys = s.keys) (k n : Nat) :
    t.firstKeyFrom k n = s.firstKeyFrom k n := by
  induction n generalizing k with
  | zero => rfl
  | succ n ih =>
    unfold State.firstKeyFrom State.keyDown
    rw [h, ih]

theorem State.scanKeys_withPorts (s : State) (b : Byte) :
    (s.withPorts s.keys b).scanKeys = s.scanKeys :=
  State.firstKeyFrom_congr (s := s) (t := s.withPorts s.keys b) rfl _ _

theorem faultOf_withPorts (i : Instr) (s : State) (k : BitVec 16) (b : Byte) :
    faultOf i (s.withPorts k b) = faultOf i s := by
  cases i <;> rfl

section
variable {i : Instr} {s : State} {k : BitVec 16} {b : Byte}

/-- A completion that does not read a port is the same whatever is on it. -/
theorem completed_withPorts (hk : readsKeys i = true → k = s.keys) (hb : readsRnd i = true → b = s.rnd) :
    completed i (s.withPorts k b) = (completed i s).withPorts k b := by
  cases i with
  | rnd x kk => obtain rfl := hb rfl; rfl
  | skp x | sknp x =>
    obtain rfl := hk rfl
    exact State.skipIf_withPorts s _ _ _
  | ldVxK x =>
    obtain rfl := hk rfl
    simp only [completed, State.scanKeys_withPorts]
    cases s.scanKeys <;> rfl
  | ldRegs x =>
    simp only [completed, State.bytesAt_withPorts]
    exact State.setVFrom_withPorts s _ _ _ _
  | drw x y n =>
    simp only [completed, State.bytesAt_withPorts]
    rfl
  | ret =>
    by_cases h : s.sp.toNat < 16
    · rw [completed_ret h, completed_ret (s := s.withPorts k b) h]
      rfl
    · rw [completed_ret_noSlot h, completed_ret_noSlot (s := s.withPorts k b) h]
  | call addr =>
    by_cases h : s.sp.toNat < 15
    · rw [completed_call addr h, completed_call addr (s := s.withPorts k b) h]
      rfl
    · rw [completed_call_noSlot addr h, completed_call_noSlot addr (s := s.withPorts k b) h]
  | seImm _ _ | sneImm _ _ | seReg _ _ _ | sneReg _ _ _ => exact State.skipIf_withPorts s _ _ _
  | _ => rfl

/-- An execution that does not read a port does the same whatever is on it. -/
theorem exec_withPorts (hk : readsKeys i = true → k = s.keys) (hb : readsRnd i = true → b = s.rnd) :
    (∃ t, exec i s = .next t ∧ exec i (s.withPorts k b) = .next (t.withPorts k b)) ∨
    ∃ f, exec i s = .fault f ∧ exec i (s.withPorts k b) = .fault f := by
  by_cases hsp : i = .ret → s.sp.toNat ≤ 15
  · refine .inl ?_
    cases hf : faultOf i s with
    | none =>
      have hports := exec_completes (s := s.withPorts k b) hsp ((faultOf_withPorts i s k b).trans hf)
      exact ⟨_, exec_completes hsp hf, by rw [hports, completed_withPorts hk hb]⟩
    | some f =>
      exact ⟨_, exec_faults hf, exec_faults ((faultOf_withPorts i s k b).trans hf)⟩
  · push Not at hsp
    obtain ⟨rfl, hsp⟩ := hsp
    exact .inr ⟨_, execRet_absent hsp, execRet_absent hsp⟩

end

theorem State.withPorts_rnd (s : State) (b : Byte) : s.withPorts s.keys b = { s with rnd := b } := rfl

/-- Settles O25: all but `RND` execute alike whatever the random byte is. -/
theorem onlyRndReadsTheRandomByte : Obligations.OnlyRndReadsTheRandomByte := by
  intro i s b hrnd
  have hb : readsRnd i = true → b = s.rnd := by
    cases i with
    | rnd x kk => exact absurd rfl (hrnd x kk)
    | _ => rintro ⟨⟩
  rcases exec_withPorts (k := s.keys) (fun _ => rfl) hb with ⟨t, ht, ht'⟩ | ⟨f, hf, hf'⟩
  · have hkeys : t.keys = s.keys := exec_keeps_control .keys ht rfl (by simp)
    rw [ht, Result.withRnd, ← t.withPorts_rnd, hkeys]
    exact ht'
  · rw [hf]
    exact hf'

/-- Settles O26: all but the three key instructions execute alike whatever the key sample is. -/
theorem onlyKeyInstructionsReadTheKeys : Obligations.OnlyKeyInstructionsReadTheKeys := by
  intro i s k hskp hsknp hscan
  have hk : readsKeys i = true → k = s.keys := by
    cases i with
    | skp x => exact absurd rfl (hskp x)
    | sknp x => exact absurd rfl (hsknp x)
    | ldVxK x => exact absurd rfl (hscan x)
    | _ => rintro ⟨⟩
  rcases exec_withPorts (b := s.rnd) hk (fun _ => rfl) with ⟨t, ht, ht'⟩ | ⟨f, hf, hf'⟩
  · have hrnd : t.rnd = s.rnd := exec_keeps_control .rnd ht rfl (by simp)
    rw [ht, Result.withKeys, show ({ t with keys := k } : State) = t.withPorts k t.rnd from rfl, hrnd]
    exact ht'
  · rw [hf]
    exact hf'

end Sys2Proof.Machine
end

section
/-! SUPPORT. `PC` after an execution (R23). -/

namespace Sys2Proof.Machine

open Sys2Proof Sys2Proof.Claims

/-- A skip taken after a fetch does not wrap. -/
theorem State.skipIf_pc_toNat {s : State} (c : Bool) (h : s.pc.toNat ≤ 4096) :
    (s.skipIf c).pc.toNat = if c then s.pc.toNat + 2 else s.pc.toNat := by
  cases c
  · rfl
  · show (s.pc + 2).toNat = s.pc.toNat + 2
    bv_omega

theorem pcAfter_ret {s : State} (h : s.sp.toNat < 16) :
    pcAfter .ret s = s.stack[s.sp.toNat].toNat := dif_pos h

theorem completed_pc {i : Instr} {s : State} (hpc : s.pc.toNat ≤ 4096)
    (hsp : i = .ret → s.sp.toNat ≤ 15) (hf : faultOf i s = none) :
    (completed i s).pc.toNat = pcAfter i s := by
  cases i with
  | seImm _ _ | seReg _ _ _ | skp _ | sknp _ =>
    exact (State.skipIf_pc_toNat _ hpc).trans (if_congr beq_iff_eq rfl rfl)
  | sneImm _ _ | sneReg _ _ _ =>
    exact (State.skipIf_pc_toNat _ hpc).trans (if_congr bne_iff_ne rfl rfl)
  | jp addr => exact zextAddr_toNat addr
  | jpV0 addr => exact zextAddr_add_zextByte_toNat addr _
  | call addr =>
    rw [completed_call addr (faultOf_call_none.1 hf)]
    exact zextAddr_toNat addr
  | ret =>
    have hlt : s.sp.toNat < 16 := by have := hsp rfl; omega
    rw [completed_ret hlt, pcAfter_ret hlt]
    rfl
  | _ => exact congrArg BitVec.toNat (completed_keeps _ s .pc (by simp [footprint]))

/-- Settles O27: a next state without a fault is the completion. -/
theorem programCounterTable : Obligations.ProgramCounterTable := by
  intro i s t hpc hnone h ht
  rcases exec_next_answer h with ⟨hf, rfl⟩ | ⟨kind, addr, -, rfl⟩
  · exact completed_pc hpc (legalSP_of_exec_next h) hf
  · simp [hnone] at ht

end Sys2Proof.Machine
end

section
/-! SUPPORT. The invariant (Safety.lean): it holds after reset, every execution keeps it, and so does every
step; and from a state that meets it no step stops. -/

namespace Sys2Proof.Machine

open Sys2Proof Sys2Proof.Claims

/-! ## Updates that keep the invariant -/

theorem State.Inv.emit {s : State} (h : s.Inv) (o : Output) : (s.emit o).Inv :=
  ⟨h.memWf, h.spLegal, h.pcBound, h.returns, h.bottomSlot, h.faultHalts, h.faultWord, h.frameRuns,
    h.frameShort, h.ticksValid⟩

/-- R223: bytes stored inside the memory. -/
theorem State.Inv.writeBytes {s : State} (h : s.Inv) {a : Nat} {bs : List Byte}
    (ha : a + bs.length ≤ 4096) : (s.writeBytes a bs).Inv :=
  ⟨Memory.wf_writeRun bs h.memWf ha, h.spLegal, h.pcBound, h.returns, h.bottomSlot, h.faultHalts,
    h.faultWord, h.frameRuns, h.frameShort, h.ticksValid⟩

/-- R191, R199: a fault whose record is complete. -/
theorem State.Inv.takeFault {s : State} (h : s.Inv) {r : FaultRecord}
    (hr : r.word = none ↔ r.kind = .fetchOob) : (s.takeFault r).Inv where
  memWf := h.memWf
  spLegal := h.spLegal
  pcBound := h.pcBound
  returns := h.returns
  bottomSlot := h.bottomSlot
  faultHalts _ := rfl
  faultWord q hq := by
    cases hs : s.fault with
    | none => rw [State.takeFault_fault s r hs] at hq; cases hq; exact hr
    | some old => rw [State.takeFault_fault_latched s r old hs] at hq; exact h.faultWord q (hs.trans hq)
  frameRuns hf := absurd rfl hf
  frameShort _ hf := by cases hf
  ticksValid := h.ticksValid

theorem State.Inv.frameEnd {s : State} (h : s.Inv) : s.frameEnd.Inv where
  memWf := h.memWf
  spLegal := h.spLegal
  pcBound := h.pcBound
  returns := h.returns
  bottomSlot := h.bottomSlot
  faultHalts := h.faultHalts
  faultWord := h.faultWord
  frameRuns hf := absurd rfl hf
  frameShort _ hf := by cases hf
  ticksValid := h.ticksValid

/-- R170: a tick that is due comes off the frame. -/
theorem State.Inv.beginTick {s : State} (h : s.Inv) {input : TickInput} {rest : List TickInput}
    (hdue : s.TickDue input rest) : (s.beginTick input rest).Inv where
  memWf := h.memWf
  spLegal := h.spLegal
  pcBound := h.pcBound
  returns := h.returns
  bottomSlot := h.bottomSlot
  faultHalts := h.faultHalts
  faultWord := h.faultWord
  frameRuns _ := hdue.1
  frameShort l hl := by
    cases hl
    exact Nat.le_of_succ_le (h.frameShort _ hdue.2)
  ticksValid := h.ticksValid

theorem State.Inv.setPC {s : State} (h : s.Inv) {a : Word} (ha : a.toNat ≤ 0x10FE) : (s.setPC a).Inv :=
  ⟨h.memWf, h.spLegal, ha, h.returns, h.bottomSlot, h.faultHalts, h.faultWord, h.frameRuns,
    h.frameShort, h.ticksValid⟩

/-! ## Reset -/

/-- R42: the state after reset under any admissible parameters. -/
theorem State.resetWith_inv {cfg : Config} (h : cfg.Valid) (inbox : List HostEvent)
    (out : List Output) : (State.resetWith cfg inbox out).Inv where
  memWf := Memory.wf_nil _
  spLegal := Nat.zero_le _
  pcBound := (by decide : (0x200#16).toNat ≤ 0x10FE)
  returns k hk hsp := absurd (hk.trans hsp) (by decide : ¬ 1 ≤ (0#8).toNat)
  bottomSlot := Vector.getElem_replicate _
  faultHalts _ := rfl
  faultWord _ hr := by cases hr
  frameRuns hf := absurd rfl hf
  frameShort _ hl := by cases hl
  ticksValid := h

/-- Settles O17: the state after reset has the default parameters, which are admissible. -/
theorem resetMeetsInvariant : Obligations.ResetMeetsInvariant :=
  State.resetWith_inv (by decide) [] []

/-! ## Executions -/

section
variable {i : Instr} {s : State}

/-- R59, R61: only the two stores write memory, and inside it. -/
theorem completed_memWf (h : s.Inv) (hf : faultOf i s = none) :
    (completed i s).mem.wf s.cfg.fontBase.val = true := by
  cases i with
  | ldB x =>
    have hi := faultOf_ldB_none.1 hf
    refine Memory.wf_writeRun _ h.memWf ?_
    show s.i.toNat + 3 ≤ 4096
    omega
  | stRegs x =>
    have hi := faultOf_stRegs_none.1 hf
    refine Memory.wf_writeRun _ h.memWf ?_
    rw [State.regsUpTo_length]
    show s.i.toNat + (x.val + 1) ≤ 4096
    omega
  | ret | call _ => simp only [completed]; split <;> exact h.memWf
  | seImm _ _ | sneImm _ _ | seReg _ _ _ | sneReg _ _ _ | skp _ | sknp _ =>
    simpa only [completed, State.skipIf_mem] using h.memWf
  | ldRegs _ => simpa only [completed, State.setVFrom_mem] using h.memWf
  | ldVxK _ => simp only [completed]; split <;> exact h.memWf
  | _ => exact h.memWf

/-- R23: the table's largest value is that of `JP V0,addr`, 0xFFF + 0xFF. -/
theorem pcAfter_le (h : s.Inv) (hpc : s.pc.toNat ≤ 4096) (hf : faultOf i s = none) :
    pcAfter i s ≤ 0x10FE := by
  cases i with
  | seImm _ _ | sneImm _ _ | seReg _ _ _ | sneReg _ _ _ | skp _ | sknp _ =>
    show ite _ _ _ ≤ _
    split <;> omega
  | jp addr | call addr =>
    show addr.toNat ≤ _
    omega
  | jpV0 addr =>
    have hbyte := (s.getV 0).isLt
    show addr.toNat + (s.getV 0).toNat ≤ _
    omega
  | ret =>
    have hpos := faultOf_ret_none.1 hf
    have hlegal := h.spLegal
    rw [pcAfter_ret (by omega)]
    obtain ⟨-, hslot⟩ := h.returns ⟨s.sp.toNat, by omega⟩ (Nat.pos_of_ne_zero hpos) le_rfl
    exact hslot.trans (by decide)
  | _ =>
    show s.pc.toNat ≤ _
    omega

/-- R103: the slot that `CALL` pushes is never the bottom one. -/
theorem not_footprint_bottomSlot : ¬ footprint i s (.stack 0) := by
  intro h
  obtain ⟨addr, rfl⟩ := stack_footprint h
  rcases h with h | h | ⟨hlt, h⟩ <;> simp [Fin.ext_iff] at h

/-- R101, R103: only `CALL` raises `SP`. -/
theorem completed_sp_le (hcall : ∀ addr, i ≠ .call addr) (hf : faultOf i s = none) :
    (completed i s).sp.toNat ≤ s.sp.toNat := by
  by_cases hret : i = .ret
  · subst hret
    have hpos := faultOf_ret_none.1 hf
    by_cases hslot : s.sp.toNat < 16
    · rw [completed_ret hslot, State.popFrom_sp]
      bv_omega
    · rw [completed_ret_noSlot hslot]
  · have hsame : Part.Same s (completed i s) .sp :=
      completed_keeps i s .sp fun h => (sp_footprint h).elim hret fun ⟨addr, h⟩ => hcall addr h
    exact Nat.le_of_eq (congrArg BitVec.toNat hsame)

/-- R101: the slots a `RET` may read hold what `CALL` pushed, which is `PC` after a fetch. -/
theorem completed_returns (h : s.Inv) (hlow : 2 ≤ s.pc.toNat) (hhigh : s.pc.toNat ≤ 4096)
    (hf : faultOf i s = none) (k : Fin 16) (hk : 1 ≤ k.val) (hsp : k.val ≤ (completed i s).sp.toNat) :
    2 ≤ (completed i s).stack[k.val].toNat ∧ (completed i s).stack[k.val].toNat ≤ 4096 := by
  by_cases hcall : ∃ addr, i = .call addr
  · obtain ⟨addr, rfl⟩ := hcall
    rw [completed_call addr (faultOf_call_none.1 hf)] at hsp ⊢
    simp only [State.setPC_sp, State.pushAt_sp, State.setPC_stack, State.pushAt_stack,
      BitVec.toNat_ofNat, Vector.getElem_set] at hsp ⊢
    split
    · exact ⟨hlow, hhigh⟩
    · exact h.returns k hk (by omega)
  · push Not at hcall
    have hsame : Part.Same s (completed i s) (.stack k) :=
      completed_keeps i s _ fun h => (stack_footprint h).elim fun addr h => hcall addr h
    rw [hsame]
    exact h.returns k hk (hsp.trans (completed_sp_le hcall hf))

theorem completed_inv (h : s.Inv) (hlow : 2 ≤ s.pc.toNat) (hhigh : s.pc.toNat ≤ 4096)
    (hf : faultOf i s = none) : (completed i s).Inv := by
  have same := completed_sameControl i s
  have hexec := exec_completes (fun _ => h.spLegal) hf
  constructor
  case memWf => rw [same.cfg]; exact completed_memWf h hf
  case spLegal => exact exec_legalSP h.spLegal hexec
  case pcBound => rw [completed_pc hhigh (fun _ => h.spLegal) hf]; exact pcAfter_le h hhigh hf
  case returns => exact completed_returns h hlow hhigh hf
  case bottomSlot => exact (completed_keeps i s _ not_footprint_bottomSlot).trans h.bottomSlot
  case faultHalts => rw [same.fault, same.run]; exact h.faultHalts
  case faultWord => rw [same.fault]; exact h.faultWord
  case frameRuns => rw [same.frame, same.run]; exact h.frameRuns
  case frameShort => rw [same.frame, same.cfg]; exact h.frameShort
  case ticksValid => rw [same.cfg]; exact h.ticksValid

/-- An execution after a fetch keeps the invariant. -/
theorem exec_inv {t : State} (h : s.Inv) (hlow : 2 ≤ s.pc.toNat) (hhigh : s.pc.toNat ≤ 4096)
    (hexec : exec i s = .next t) : t.Inv := by
  rcases exec_next_answer hexec with ⟨hf, rfl⟩ | ⟨kind, addr, hf, rfl⟩
  · exact completed_inv h hlow hhigh hf
  · exact h.takeFault (by simp [faultOf_kind hf])

end

/-! ## Steps -/

theorem tick_inv {s t : State} {input : TickInput} {rest : List TickInput} (h : s.Inv)
    (hdue : s.TickDue input rest) (ht : tick input rest s = .next t) : t.Inv := by
  have hbegin := h.beginTick hdue
  by_cases hpc : s.pc.toNat ≤ 4094
  · rw [tick_inside input rest s hpc] at ht
    have hadvanced : (s.pc + 2).toNat = s.pc.toNat + 2 := by bv_omega
    exact exec_inv (hbegin.setPC (by omega)) (by rw [State.setPC_pc]; omega)
      (by rw [State.setPC_pc]; omega) ht
  · rw [tick_outside input rest s (by omega)] at ht
    cases ht
    exact hbegin.takeFault (by simp)

/-- R178: no frame is under way when the host is heard. -/
theorem State.Inv.no_frame {s : State} (h : s.Inv) (hturn : s.run = .idle ∨ s.frame = none) :
    s.frame = none := by
  rcases hturn with hidle | hnone
  · by_contra hf
    simp [h.frameRuns hf] at hidle
  · exact hnone

theorem State.Inv.withRun {s : State} (h : s.Inv) (hframe : s.frame = none) {r : RunState}
    (hr : s.fault ≠ none → r = .idle) : ({ s with run := r } : State).Inv :=
  ⟨h.memWf, h.spLegal, h.pcBound, h.returns, h.bottomSlot, hr, h.faultWord,
    fun hf => absurd hframe hf, h.frameShort, h.ticksValid⟩

theorem State.Inv.hostLoad {s : State} (h : s.Inv) (bytes : List Byte) : (s.hostLoad bytes).Inv := by
  unfold State.hostLoad
  split
  · exact h.emit _
  · split
    · exact h.emit _
    · exact (h.writeBytes (by omega)).emit _

theorem State.Inv.hostStart {s : State} (h : s.Inv) (hframe : s.frame = none) : s.hostStart.Inv := by
  unfold State.hostStart
  split
  next hok => exact h.withRun hframe fun hf => absurd hok.2 hf
  · exact h.emit _

/-- R178: a frame begins while Running, with its `TICKS_PER_FRAME` inputs. -/
theorem State.Inv.hostFrame {s t : State} (h : s.Inv) {inputs : List TickInput}
    (ht : hostFrame inputs s = .next t) : t.Inv := by
  unfold Machine.hostFrame at ht
  split at ht
  · cases ht; exact h
  next hrun =>
    split at ht
    next hlen =>
      cases ht
      refine ⟨h.memWf, h.spLegal, h.pcBound, h.returns, h.bottomSlot, h.faultHalts, h.faultWord,
        fun _ => ?_, ?_, h.ticksValid⟩
      · cases hr : s.run with
        | idle => exact absurd hr hrun
        | running => rfl
      · rintro l ⟨⟩
        exact hlen.le
    · cases ht

theorem hostEvent_inv {s t : State} (h : s.Inv) (hframe : s.frame = none) (e : HostEvent)
    (ht : hostEvent e s = .next t) : t.Inv := by
  cases e with
  | reset => cases ht; exact State.resetWith_inv h.ticksValid _ _
  | load bytes => cases ht; exact h.hostLoad bytes
  | start => cases ht; exact h.hostStart hframe
  | stop => cases ht; exact h.withRun hframe fun _ => rfl
  | frame inputs => exact h.hostFrame ht

/-- Settles O18: a tick, a frame end, a host event and waiting each keep the invariant. -/
theorem stepKeepsInvariant : Obligations.StepKeepsInvariant := by
  intro s t h ht
  rcases step_is s with ⟨input, rest, hdue, hs⟩ | ⟨-, -, hs⟩ | ⟨e, rest, htakes, hs⟩ | ⟨-, -, hs⟩ <;>
    rw [hs] at ht
  · exact tick_inv h hdue ht
  · cases ht; exact h.frameEnd
  · exact hostEvent_inv (h.withInbox rest) (h.no_frame htakes.1) e ht
  · cases ht; exact h

/-! ## No step stops -/

theorem tick_next {s : State} (h : s.Inv) (input : TickInput) (rest : List TickInput) :
    ∃ t, tick input rest s = .next t := by
  by_cases hpc : s.pc.toNat ≤ 4094
  · rw [tick_inside input rest s hpc]
    exact exec_next_of_legalSP _ h.spLegal
  · rw [tick_outside input rest s (by omega)]
    exact ⟨_, rfl⟩

theorem hostEvent_next (e : HostEvent) (s : State)
    (h : ∀ inputs, e = .frame inputs → inputs.length = s.cfg.ticksPerFrame) :
    ∃ t, hostEvent e s = .next t := by
  cases e with
  | frame inputs =>
    by_cases hidle : s.run = .idle
    · exact ⟨s, if_pos hidle⟩
    · exact ⟨_, (if_neg hidle).trans (if_pos (h inputs rfl))⟩
  | _ => exact ⟨_, rfl⟩

/-- Settles O19: a legal `SP` rules out the one `Fault`, and the hypothesis the one `Refusal`. -/
theorem invariantRulesOutStops : Obligations.InvariantRulesOutStops := by
  intro s h hframe
  rcases step_is s with ⟨input, rest, -, hs⟩ | ⟨-, -, hs⟩ | ⟨e, rest, ⟨-, hbox⟩, hs⟩ | ⟨-, -, hs⟩ <;>
    rw [hs]
  · exact tick_next h input rest
  · exact ⟨_, rfl⟩
  · refine hostEvent_next e _ ?_
    rintro inputs rfl
    exact hframe inputs rest hbox
  · exact ⟨_, rfl⟩

end Sys2Proof.Machine
end

section
/-! SUPPORT. Canonical memories (R28, R50): such a memory lists an address exactly when its byte is not the
reset byte, so what it reads as determines the list. -/

namespace Sys2Proof.Machine

open Sys2Proof

section
variable {f : Nat}

/-- A canonical memory lists no address at or below the bound it is above. -/
theorem Memory.listed_eq_none {k a : Nat} {m : Memory} (h : Memory.wfAbove f (some k) m = true)
    (ha : a ≤ k) : m.listed a = none := by
  induction m generalizing k with
  | nil => rfl
  | cons e m ih =>
    obtain ⟨c, b⟩ := e
    obtain ⟨habove, -, -, hm⟩ := Memory.wfAbove_cons.1 h
    have hkc := habove k rfl
    rw [Memory.listed, if_neg (by omega)]
    exact ih hm (by omega)

/-- What a canonical memory lists is inside the memory, and no reset byte. -/
theorem Memory.listed_eq_some {low : Option Nat} {a : Nat} {b : Byte} {m : Memory}
    (h : Memory.wfAbove f low m = true) (hl : m.listed a = some b) : a < 4096 ∧ b ≠ resetByte f a := by
  induction m generalizing low with
  | nil => cases hl
  | cons e m ih =>
    obtain ⟨c, d⟩ := e
    obtain ⟨-, hc, hd, hm⟩ := Memory.wfAbove_cons.1 h
    rw [Memory.listed] at hl
    split at hl
    next hca => subst hca; cases hl; exact ⟨hc, hd⟩
    · exact ih hm hl

/-- Canonical memories that read alike list alike. -/
theorem Memory.listed_congr {m₁ m₂ : Memory} (h₁ : m₁.wf f = true) (h₂ : m₂.wf f = true)
    (hread : ∀ a < 4096, m₁.read f a = m₂.read f a) (a : Nat) : m₁.listed a = m₂.listed a := by
  cases hl₁ : m₁.listed a with
  | none =>
    cases hl₂ : m₂.listed a with
    | none => rfl
    | some b =>
      obtain ⟨ha, hb⟩ := Memory.listed_eq_some h₂ hl₂
      have := hread a ha
      simp only [Memory.read, hl₁, hl₂, Option.getD_none, Option.getD_some] at this
      exact absurd this.symm hb
  | some b =>
    obtain ⟨ha, hb⟩ := Memory.listed_eq_some h₁ hl₁
    have := hread a ha
    cases hl₂ : m₂.listed a with
    | none =>
      simp only [Memory.read, hl₁, hl₂, Option.getD_none, Option.getD_some] at this
      exact absurd this hb
    | some c =>
      simp only [Memory.read, hl₁, hl₂, Option.getD_some] at this
      rw [this]

/-- Canonical memories that list alike are the same list. -/
theorem Memory.eq_of_listed {low₁ low₂ : Option Nat} {m₁ m₂ : Memory}
    (h₁ : Memory.wfAbove f low₁ m₁ = true) (h₂ : Memory.wfAbove f low₂ m₂ = true)
    (h : ∀ a, m₁.listed a = m₂.listed a) : m₁ = m₂ := by
  induction m₁ generalizing m₂ low₁ low₂ with
  | nil =>
    cases m₂ with
    | nil => rfl
    | cons e m₂ => have := h e.1; simp [Memory.listed] at this
  | cons e₁ m₁ ih =>
    obtain ⟨a₁, b₁⟩ := e₁
    obtain ⟨-, -, -, hm₁⟩ := Memory.wfAbove_cons.1 h₁
    cases m₂ with
    | nil => have := h a₁; simp [Memory.listed] at this
    | cons e₂ m₂ =>
      obtain ⟨a₂, b₂⟩ := e₂
      obtain ⟨-, -, -, hm₂⟩ := Memory.wfAbove_cons.1 h₂
      have haddr : a₁ = a₂ := by
        by_contra hne
        rcases Nat.lt_or_gt_of_ne hne with hlt | hlt
        · have := h a₁
          simp [Memory.listed, Ne.symm hne, Memory.listed_eq_none hm₂ hlt.le] at this
        · have := h a₂
          simp [Memory.listed, hne, Memory.listed_eq_none hm₁ hlt.le] at this
      subst haddr
      have hbyte : b₁ = b₂ := by simpa [Memory.listed] using h a₁
      have htail : m₁ = m₂ := by
        refine ih hm₁ hm₂ fun c => ?_
        by_cases hc : a₁ = c
        · subst hc
          rw [Memory.listed_eq_none hm₁ le_rfl, Memory.listed_eq_none hm₂ le_rfl]
        · simpa [Memory.listed, hc] using h c
      rw [hbyte, htail]

end

/-- Settles O20: reading alike is listing alike, and that is being the same list. -/
theorem canonicalMemoryIsUnique : Obligations.CanonicalMemoryIsUnique :=
  fun _ _ _ h₁ h₂ hread => Memory.eq_of_listed h₁ h₂ (Memory.listed_congr h₁ h₂ hread)

end Sys2Proof.Machine
end

section
/-! SUPPORT. The tick (R170 to R173): what the step of a due tick is, on both sides of the fetch. -/

namespace Sys2Proof.Machine

open Sys2Proof Sys2Proof.Claims

/-- Settles O5: `w` is the word that the fetch gives. -/
theorem stepRunsDecodedInstruction : Obligations.StepRunsDecodedInstruction := by
  intro s input rest w hdue hpc hw
  have hword : w = s.wordAt s.pc.toNat := by
    apply BitVec.eq_of_toNat_eq
    rw [hw, State.wordAt, wordOfBytes_toNat]
  rw [step_of_tickDue hdue, tick_inside input rest s hpc, hword]
  rfl

/-- Settles O6: the fetch fault, taken in the state in which the tick begins. -/
theorem fetchPastTheEndFaults : Obligations.FetchPastTheEndFaults := by
  intro s input rest hdue hpc hnone
  rw [step_of_tickDue hdue, tick_outside input rest s hpc]
  exact raiseFetch_eq (s := s.beginTick input rest) _ hnone

/-- Settles O24: only a raise of the decoded instruction latches a record, and its word is the one fetched. -/
theorem faultRecordNamesTheInstruction : Obligations.FaultRecordNamesTheInstruction := by
  intro s t input rest r hdue hpc hnone ht hr
  rw [step_of_tickDue hdue, tick_inside input rest s hpc] at ht
  rcases exec_next_cases ht with same | ⟨kind, addr, -, rfl⟩
  · rw [same.fault] at hr
    cases hnone.symm.trans hr
  · have hrecord := State.takeFault_fault ((s.beginTick input rest).setPC (s.pc + 2))
    rw [hrecord _ hnone] at hr
    cases hr
    refine ⟨congrArg some (decode_classifies _ _).2, ?_, rfl⟩
    show s.pc + 2 - 2 = s.pc
    bv_omega

/-! ## A store and the fetch after it (R68) -/

/-- What a byte reads as once a run of bytes has been stored at `I`. -/
theorem State.readByte_writeBytes_base (s : State) (bs : List Byte) (a : Nat) :
    (s.writeBytes s.base bs).readByte a = byteOnceStored s bs a := by
  unfold byteOnceStored
  split
  next hlow =>
    by_cases hin : a - s.i.toNat < bs.length
    · have haddr : s.base + (a - s.i.toNat) = a := Nat.add_sub_cancel' hlow
      have := s.readByte_writeBytes_inside s.base _ bs hin
      rw [haddr] at this
      rw [this, List.getD_eq_getElem _ _ hin]
    · rw [List.getD_eq_default _ _ (by omega)]
      exact s.readByte_writeBytes_outside _ _ _ (.inr (by unfold State.base; omega))
  next hlow => exact s.readByte_writeBytes_outside _ _ _ (.inl (by unfold State.base; omega))

/-- An execution that ends with no fault latched has completed. -/
theorem eq_completed_of_no_fault {i : Instr} {s t : State} (h : exec i s = .next t)
    (ht : t.fault = none) : t = completed i s := by
  rcases exec_next_answer h with ⟨-, rfl⟩ | ⟨kind, addr, -, rfl⟩
  · rfl
  · cases hs : s.fault <;> simp [hs] at ht

/-- Settles O7: the completed store, read byte by byte by the fetch. -/
theorem storeIsSeenByNextFetch : Obligations.StoreIsSeenByNextFetch := by
  intro s t i x bs hi hexec hnone a input rest ha hdue
  have ht : t = s.writeBytes s.base bs := by
    rw [eq_completed_of_no_fault hexec hnone]
    rcases hi with ⟨rfl, rfl⟩ | ⟨rfl, rfl⟩ <;> rfl
  have hread (c : Nat) : t.readByte c = byteOnceStored s bs c := by
    rw [ht, State.readByte_writeBytes_base]
  have hpc : (BitVec.ofNat 16 a).toNat = a := by
    rw [BitVec.toNat_ofNat]
    omega
  have hword : (byteOnceStored s bs a ++ byteOnceStored s bs (a + 1)).toNat =
      (t.readByte (BitVec.ofNat 16 a).toNat).toNat * 256 +
        (t.readByte ((BitVec.ofNat 16 a).toNat + 1)).toNat := by
    rw [hpc, hread, hread]
    exact wordOfBytes_toNat _ _
  have hcfg : t.cfg = s.cfg := by rw [ht, State.writeBytes_cfg]
  rw [← hcfg]
  exact stepRunsDecodedInstruction _ input rest _ hdue (hpc.trans_le ha) hword

end Sys2Proof.Machine
end

section
/-! SUPPORT. The frame end's signals (R180, R181) and the host's events (R220 to R226): what each answers, and
which parts of the state it keeps. -/

namespace Sys2Proof.Machine

open Sys2Proof Sys2Proof.Claims

/-! ## The frame end -/

theorem State.frameEnd_toneActive (s : State) :
    s.frameEnd.toneActive = true ↔ s.frameEnd.st.toNat ≠ 0 :=
  bne_iff_ne.trans (not_congr BitVec.toNat_inj.symm)

/-- Settles O9: the tone signal is that of the counted-down `ST`, the pulse is the old dirty mark. -/
theorem frameEndRaisesSignals : Obligations.FrameEndRaisesSignals := by
  intro s hrun hframe
  refine ⟨s.frameEnd, step_of_frameEnd hrun hframe, s.frameEnd_toneActive, ?_, rfl, rfl, rfl⟩
  rw [State.frameEnd_toneActive, State.frameEnd_st, countDown_toNat]
  omega

/-! ## Start, stop and the frame event -/

/-- Settles O13: start by the two conditions of R224, stop in every case. -/
theorem startAndStopMoveTheScheduler : Obligations.StartAndStopMoveTheScheduler := by
  intro s rest
  refine ⟨fun htakes hidle hnone => ?_, fun htakes hor => ?_, fun htakes => ?_⟩ <;>
    rw [step_of_takesHostEvent htakes]
  · exact congrArg _ (if_pos ⟨hidle, hnone⟩)
  · refine congrArg _ (if_neg ?_)
    rintro ⟨hidle, hnone⟩
    exact hor.elim (fun hrun => by cases hidle.symm.trans hrun) fun hfault => hfault hnone
  · rfl

/-- Settles O14: the three branches of the frame event. -/
theorem frameEventBeginsAFrame : Obligations.FrameEventBeginsAFrame := by
  intro s inputs rest htakes
  have hbusy (hrun : s.run = .running) : ¬ s.run = .idle := by rintro hidle; cases hidle.symm.trans hrun
  refine ⟨fun hrun hlen => ?_, fun hidle => ?_, fun hrun hlen => ?_⟩ <;>
    rw [step_of_takesHostEvent htakes]
  · exact (if_neg (hbusy hrun)).trans (if_pos hlen)
  · exact if_pos hidle
  · exact (if_neg (hbusy hrun)).trans (if_neg hlen)

/-! ## Load -/

section
variable {s : State} {bytes : List Byte}

theorem State.hostLoad_running (h : s.run = .running) : s.hostLoad bytes = s.emit .refused := if_pos h

theorem State.hostLoad_tooLarge (h : s.run = .idle) (hlen : 3584 < bytes.length) :
    s.hostLoad bytes = s.emit .programTooLarge :=
  (if_neg (by simp [h])).trans (if_pos hlen)

theorem State.hostLoad_accepted (h : s.run = .idle) (hlen : bytes.length ≤ 3584) :
    s.hostLoad bytes = (s.writeBytes 512 bytes).emit .loadAccepted :=
  (if_neg (by simp [h])).trans (if_neg (Nat.not_lt.2 hlen))

/-- R223: whatever it answers, a load changes the program window and the outputs alone. -/
theorem State.hostLoad_keeps (s : State) (bytes : List Byte) :
    KeepsExcept (fun p => p = .out ∨ ∃ a, p = .mem a ∧ 512 ≤ a ∧ a < 512 + bytes.length) s
      (s.hostLoad bytes) := by
  have emits (t : State) (o : Output) := (t.emit_keeps o).mono fun p hp =>
    (Or.inl hp : p = .out ∨ ∃ a, p = .mem a ∧ 512 ≤ a ∧ a < 512 + bytes.length)
  unfold State.hostLoad
  split
  · exact emits s _
  · split
    · exact emits s _
    · exact ((s.writeBytes_keeps 512 bytes).mono fun p hp => Or.inr hp).trans (emits _ _)

end

/-- Taking an event off the queue changes the queue alone. -/
theorem State.withInbox_keeps (s : State) (box : List HostEvent) :
    KeepsExcept (fun p => p = .inbox) s { s with inbox := box } := by
  intro p hp
  cases p with
  | inbox => exact absurd rfl hp
  | _ => rfl

/-- Settles O12: the three answers to a load. -/
theorem loadWritesTheProgramWindow : Obligations.LoadWritesTheProgramWindow := by
  intro s bytes rest htakes
  have hstep : step s = .next (({ s with inbox := rest } : State).hostLoad bytes) :=
    step_of_takesHostEvent htakes
  refine ⟨fun hidle hlen => ?_, fun hidle hlen => ?_, fun hrun => ?_⟩
  · have hload := State.hostLoad_accepted (s := { s with inbox := rest }) hidle hlen
    refine ⟨_, hstep.trans (congrArg _ hload), fun k hk => ?_, rfl, rfl, ?_⟩
    · exact State.readByte_writeBytes_inside _ 512 k bytes hk
    · rw [← hload]
      exact ((s.withInbox_keeps rest).mono fun p hp => Or.inl hp).trans
        ((State.hostLoad_keeps _ bytes).mono fun p hp => Or.inr hp)
  · exact hstep.trans (congrArg _ (State.hostLoad_tooLarge hidle hlen))
  · exact hstep.trans (congrArg _ (State.hostLoad_running hrun))

/-! ## A latched fault (R199) -/

/-- What a step may change while a fault is latched. -/
def hostParts (s : State) (p : Part) : Prop :=
  p = .inbox ∨ p = .out ∨ (∃ bytes rest, s.inbox = .load bytes :: rest) ∧ ∃ a, p = .mem a

/-- The next state of an event other than reset, with a fault latched. -/
theorem hostEvent_of_fault {s : State} {e : HostEvent} {rest : List HostEvent} (hidle : s.run = .idle)
    (hfault : s.fault ≠ none) (hbox : s.inbox = e :: rest) (hreset : e ≠ .reset) :
    ∃ t, hostEvent e { s with inbox := rest } = .next t ∧ KeepsExcept (hostParts s) s t := by
  have htaken : KeepsExcept (hostParts s) s { s with inbox := rest } :=
    (s.withInbox_keeps rest).mono fun p hp => Or.inl hp
  cases e with
  | reset => exact absurd rfl hreset
  | load bytes =>
    refine ⟨_, rfl, htaken.trans ((State.hostLoad_keeps _ bytes).mono ?_)⟩
    rintro p (hp | ⟨a, hp, -⟩)
    · exact .inr (.inl hp)
    · exact .inr (.inr ⟨⟨bytes, rest, hbox⟩, a, hp⟩)
  | start =>
    refine ⟨_, rfl, ?_⟩
    unfold State.hostStart
    rw [if_neg (fun h => hfault h.2)]
    exact htaken.trans ((State.emit_keeps _ _).mono fun p hp => Or.inr (.inl hp))
  | stop =>
    refine ⟨_, rfl, htaken.trans ?_⟩
    unfold State.hostStop
    rw [← hidle]
    exact KeepsExcept.refl _
  | frame inputs => exact ⟨_, if_pos hidle, htaken⟩

/-- Settles O11: a machine with a fault latched is Idle, so the step is the host's turn. -/
theorem faultIsStickyUntilReset : Obligations.FaultIsStickyUntilReset := by
  intro s r h hr hreset
  have hfault : s.fault ≠ none := by simp [hr]
  have hidle := h.faultHalts hfault
  have hstep : ∃ t, step s = .next t ∧ KeepsExcept (hostParts s) s t := by
    cases hbox : s.inbox with
    | nil => exact ⟨s, by rw [step_of_hostTurn (.inl hidle), hostTurn, hbox], KeepsExcept.refl s⟩
    | cons e rest =>
      rw [step_of_takesHostEvent ⟨.inl hidle, hbox⟩]
      exact hostEvent_of_fault hidle hfault hbox fun he => hreset rest (he ▸ hbox)
  obtain ⟨t, ht, hkeeps⟩ := hstep
  have hsame (p : Part) (hp : p.isControl = true ∧ p ≠ .inbox) : Part.Same s t p := by
    refine hkeeps p ?_
    rintro (rfl | rfl | ⟨-, a, rfl⟩) <;> simp [Part.isControl] at hp
  exact ⟨t, ht, (hsame .fault (by simp [Part.isControl])).trans hr,
    (hsame .run (by simp [Part.isControl])).trans hidle, hkeeps⟩

/-! ## Reset (R42, R56, R220) -/

/-- R220: the glyph bytes, counted from `FONT_BASE`. -/
theorem resetByte_add (fontBase k : Nat) : resetByte fontBase (fontBase + k) = glyphBytes.getD k 0 := by
  rw [resetByte, if_pos (by omega), Nat.add_sub_cancel_left]

/-- R28: outside the font block memory is 0 after reset. -/
theorem resetByte_outside {fontBase a : Nat} (h : a < fontBase ∨ fontBase + 80 ≤ a) :
    resetByte fontBase a = 0 := by
  unfold resetByte
  split
  · exact List.getD_eq_default _ _ (by show 80 ≤ a - fontBase; omega)
  · rfl

/-- R56: the sixteen glyphs, one row of the table after the other. -/
theorem glyphBytes_rows : ∀ d < 16,
    [glyphBytes.getD (5 * d) 0, glyphBytes.getD (5 * d + 1) 0, glyphBytes.getD (5 * d + 2) 0,
      glyphBytes.getD (5 * d + 3) 0, glyphBytes.getD (5 * d + 4) 0] = fontRows.getD d [] := by
  decide

section
variable (cfg : Config) (inbox : List HostEvent) (out : List Output)

theorem State.resetWith_readByte (a : Nat) :
    (State.resetWith cfg inbox out).readByte a = resetByte cfg.fontBase.val a := rfl

theorem State.resetWith_getV (r : Reg) : (State.resetWith cfg inbox out).getV r = 0 :=
  Vector.getElem_replicate _

theorem State.resetWith_stack (k : Fin 16) : (State.resetWith cfg inbox out).stack[k.val] = 0 :=
  Vector.getElem_replicate _

theorem State.resetWith_pixel (p : Nat) : (State.resetWith cfg inbox out).pixel p = false :=
  FrameBuffer.pixel_clear p

theorem State.resetWith_glyph {d : Nat} (hd : d < 16) :
    (State.resetWith cfg inbox out).bytesAt (cfg.fontBase.val + 5 * d) 5 = fontRows.getD d [] := by
  rw [← glyphBytes_rows d hd]
  simp only [State.bytesAt, State.resetWith_readByte, Nat.add_assoc, resetByte_add, Nat.reduceAdd]

end

/-- Settles O15: the step is the reset, under the parameters of the state. -/
theorem resetEventRestoresEverything : Obligations.ResetEventRestoresEverything := by
  intro s rest htakes
  refine ⟨State.resetWith s.cfg rest s.out, step_of_takesHostEvent htakes, ?_⟩
  exact ⟨State.resetWith_getV _ _ _, rfl, rfl, rfl, rfl, rfl, State.resetWith_stack _ _ _,
    fun d hd => State.resetWith_glyph _ _ _ hd, fun a ha => resetByte_outside ha,
    State.resetWith_pixel _ _ _, rfl, rfl, rfl, rfl, rfl, rfl, rfl⟩

/-- Settles O16: the same state under the default parameters. -/
theorem resetStateHasTheResetValues : Obligations.ResetStateHasTheResetValues :=
  ⟨State.resetWith_getV _ _ _, rfl, rfl, rfl, State.resetWith_stack _ _ _, rfl, rfl,
    State.resetWith_pixel _ _ _, rfl, rfl, rfl, rfl, rfl, by decide,
    fun _ ha => resetByte_outside (.inr ha), fun _ ha => resetByte_outside (.inl ha), rfl, rfl, rfl, rfl,
    rfl⟩

end Sys2Proof.Machine
end

section
/-! SUPPORT. Instruction by instruction: control flow (R101 to R107, R174) and the keys (R160 to R162). Each
frame is the footprint of the completion. -/

namespace Sys2Proof.Machine

open Sys2Proof Sys2Proof.Claims

/-- R190, R192: an instruction in the state of its row halts with the kind and address of the row. -/
theorem exec_halts {i : Instr} {s : State} {kind : FaultKind} {addr : Nat}
    (hf : faultOf i s = some (kind, addr)) (hnone : s.fault = none) :
    ∃ t, exec i s = .next t ∧ Halted kind addr s t :=
  ⟨_, exec_faults hf, ⟨_, State.takeFault_fault s _ hnone, rfl, rfl⟩, rfl, rfl, s.takeFault_keeps _⟩

/-- Settles O29: one `emit`. -/
theorem unknownIsANoOp : Obligations.UnknownIsANoOp :=
  fun _ s => ⟨_, rfl, rfl, s.emit_keeps _⟩

/-! ## CALL and RET -/

/-- Settles O31, by the row of `CALL` in the table of faults. -/
theorem callPushesTheReturnAddress : Obligations.CallPushesTheReturnAddress := by
  intro addr s
  refine ⟨fun h => ⟨completed (.call addr) s, exec_completes (by simp) (faultOf_call_none.2 h), ?_, ?_,
    ?_, ?_⟩, fun h hnone => exec_halts (if_pos h) hnone⟩
  · rw [completed_call addr h, State.setPC_sp, State.pushAt_sp, BitVec.toNat_ofNat]
    exact Nat.mod_eq_of_lt (by show s.sp.toNat + 1 < 256; omega)
  · simp [completed_call addr h]
  · rw [completed_call addr h, State.setPC_pc, zextAddr_toNat]
  · refine (completed_keeps _ s).mono ?_
    rintro p (hp | hp | ⟨_, hp⟩)
    · exact .inl hp
    · exact .inr (.inl hp)
    · exact .inr (.inr hp)

/-- Settles O32, by the row of `RET` in the table of faults. -/
theorem retPopsTheReturnAddress : Obligations.RetPopsTheReturnAddress := by
  intro s
  refine ⟨fun h hpos => ⟨completed .ret s,
    exec_completes (fun _ => h) (faultOf_ret_none.2 (Nat.ne_of_gt hpos)), ?_, ?_,
    completed_keeps .ret s⟩, fun h hnone => exec_halts (if_pos h) hnone⟩
  · rw [completed_ret (by omega), State.popFrom_pc]
  · rw [completed_ret (by omega), State.popFrom_sp]
    bv_omega

/-- Settles O33: the `RET` pops the slot that the `CALL` pushed. -/
theorem callThenRetRoundTrip : Obligations.CallThenRetRoundTrip := by
  intro addr s t u hlt hcall husp hustack
  obtain ⟨t', ht', htsp, htslot, -, -⟩ := (callPushesTheReturnAddress addr s).1 hlt
  obtain rfl : t' = t := by cases ht'.symm.trans hcall; rfl
  have hsp : u.sp.toNat = s.sp.toNat + 1 := by rw [husp, htsp]
  obtain ⟨w, hw, hwpc, hwsp, -⟩ := (retPopsTheReturnAddress u).1 (by omega) (by omega)
  refine ⟨w, hw, ?_, BitVec.eq_of_toNat_eq (by omega)⟩
  simp only [hwpc, hustack, hsp, htslot]

/-! ## The skips -/

/-- Settles O35: the two instructions are skips on `V[x] == V[y]` and on its negation. -/
theorem registerSkips : Obligations.RegisterSkips := fun _ _ _ _ =>
  ⟨exec_skips rfl beq_iff_eq.2 beq_false_of_ne, exec_skips rfl bne_iff_ne.2 bne_eq_false_iff_eq.2⟩

/-- Settles O52: with a key number of at most 15 skips on the key's state, by the rows of the table. -/
theorem keySkips : Obligations.KeySkips := by
  intro x s
  refine ⟨fun hx => ?_, fun hx hnone => ⟨exec_halts (if_pos hx) hnone, exec_halts (if_pos hx) hnone⟩⟩
  have hin : ¬ (s.getV x).toNat > 15 := by omega
  have hskp : exec (.skp x) s = .next (completed (.skp x) s) := exec_completes (by simp) (if_neg hin)
  have hsknp : exec (.sknp x) s = .next (completed (.sknp x) s) := exec_completes (by simp) (if_neg hin)
  exact ⟨exec_skips hskp (by simp [State.keyDown]) (by simp [State.keyDown]),
    exec_skips hsknp (by simp [State.keyDown]) (by simp [State.keyDown])⟩

/-! ## The key scan -/

/-- R162: the scan finds the first key down. -/
theorem State.firstKeyFrom_lowest {s : State} {k n m : Nat} (hlow : k ≤ m) (hhigh : m < k + n)
    (hdown : s.keyDown m = true) (hup : ∀ j < m, s.keyDown j = false) : s.firstKeyFrom k n = some m := by
  induction n generalizing k with
  | zero => omega
  | succ n ih =>
    unfold State.firstKeyFrom
    by_cases hk : k = m
    · rw [hk, if_pos hdown]
    · rw [hup k (by omega), if_neg (by simp)]
      exact ih (by omega) (by omega)

theorem State.firstKeyFrom_none {s : State} {k n : Nat} (hup : ∀ j < k + n, s.keyDown j = false) :
    s.firstKeyFrom k n = none := by
  induction n generalizing k with
  | zero => rfl
  | succ n ih =>
    rw [State.firstKeyFrom, hup k (by omega), if_neg (by simp)]
    exact ih fun j hj => hup j (by omega)

/-- Settles O53: the scan's result decides between one `setV` and nothing. -/
theorem keyCaptureDoesNotWait : Obligations.KeyCaptureDoesNotWait := by
  intro x s
  have hlast := s.cfg.keyscanLast.isLt
  refine ⟨completed (.ldVxK x) s, exec_completes (by simp) rfl, fun k hk hdown hup => ?_, fun hup => ?_,
    completed_keeps (.ldVxK x) s⟩
  · have hscan : s.scanKeys = some k :=
      State.firstKeyFrom_lowest (Nat.zero_le k) (by omega) hdown hup
    rw [completed_ldVxK_of_some hscan, State.getV_setV_same, BitVec.toNat_ofNat]
    omega
  · have hscan : s.scanKeys = none := State.firstKeyFrom_none fun j hj => hup j (by omega)
    rw [completed_ldVxK_of_none hscan]

end Sys2Proof.Machine
end

section
/-! SUPPORT. Instruction by instruction: the ALU (R123 to R133). The bitwise operations are one `setV`, the
others one `setFlagThenV`, whose result is in `V[x]` and whose flag is in `VF` when `x` is not 15. -/

namespace Sys2Proof.Machine

open Sys2Proof Sys2Proof.Claims

/-- Settles O37: one `setV` of the bitwise result each. -/
theorem bitwiseOperations : Obligations.BitwiseOperations := by
  intro x y s
  refine ⟨⟨_, rfl, fun k _ => ?_, s.setV_keeps x _⟩, ⟨_, rfl, fun k _ => ?_, s.setV_keeps x _⟩,
    ⟨_, rfl, fun k _ => ?_, s.setV_keeps x _⟩⟩
  · rw [State.getV_setV_same, BitVec.getLsbD_or]
  · rw [State.getV_setV_same, BitVec.getLsbD_and]
  · rw [State.getV_setV_same, BitVec.getLsbD_xor]

/-! ## The flag and the result -/

@[simp] theorem State.getV_setFlagThenV_result (s : State) (flag : Byte) (x : Reg) (result : Byte) :
    (s.setFlagThenV flag x result).getV x = result := by
  rw [State.getV_setFlagThenV, if_pos rfl]

theorem State.getV_setFlagThenV_flag (s : State) (flag : Byte) {x : Reg} (result : Byte) (h : x ≠ 15) :
    (s.setFlagThenV flag x result).getV 15 = flag := by
  rw [State.getV_setFlagThenV, if_neg h, if_pos rfl]

theorem flagByte_toNat (f : Bool) : (flagByte f).toNat = if f then 1 else 0 := by cases f <;> rfl

theorem carryFlag_toNat (a b : Byte) :
    (flagByte (carryFlag a b)).toNat = if a.toNat + b.toNat > 255 then 1 else 0 := by
  simp [flagByte_toNat, carryFlag]

theorem noBorrowFlag_toNat (a b : Byte) :
    (flagByte (noBorrowFlag a b)).toNat = if a.toNat ≥ b.toNat then 1 else 0 := by
  simp [flagByte_toNat, noBorrowFlag]

/-- R128: the bit that a right shift puts out is the remainder. -/
theorem lowBitFlag_toNat (a : Byte) : (flagByte (lowBitFlag a)).toNat = a.toNat % 2 := by
  rw [flagByte_toNat, lowBitFlag, BitVec.getLsbD, Nat.testBit_zero]
  simp only [decide_eq_true_eq]
  split <;> omega

/-- R131: the bit that a left shift puts out is the top one. -/
theorem highBitFlag_toNat (a : Byte) : (flagByte (highBitFlag a)).toNat = a.toNat / 128 := by
  have := a.isLt
  rw [flagByte_toNat, highBitFlag, BitVec.getLsbD, Nat.testBit_eq_decide_div_mod_eq]
  simp only [decide_eq_true_eq]
  split <;> omega

/-- R127: the exact difference, modulo 256. -/
theorem sub_toNat_mod (a b : Byte) : ((a - b).toNat : Int) = (a.toNat - b.toNat : Int) % 256 := by
  have := a.isLt
  have := b.isLt
  rw [BitVec.toNat_sub]
  omega

/-- Settles O38: one `setFlagThenV` of the sum and the carry. -/
theorem addRegistersWithCarry : Obligations.AddRegistersWithCarry := by
  intro x y s
  refine ⟨_, rfl, ?_, fun hx => ?_, s.setFlagThenV_keeps _ x _⟩
  · rw [State.getV_setFlagThenV_result, BitVec.toNat_add]
  · rw [State.getV_setFlagThenV_flag _ _ _ hx, carryFlag_toNat]

/-- Settles O39: one `setFlagThenV` of the difference and the no-borrow flag. -/
theorem subtractRegisters : Obligations.SubtractRegisters := by
  intro x y s
  refine ⟨_, rfl, ?_, fun hx => ?_, s.setFlagThenV_keeps _ x _⟩
  · rw [State.getV_setFlagThenV_result, sub_toNat_mod]
  · rw [State.getV_setFlagThenV_flag _ _ _ hx, noBorrowFlag_toNat]

/-- Settles O40: one `setFlagThenV` each, of the shifted byte and the bit put out. -/
theorem shiftsByOneBit : Obligations.ShiftsByOneBit := by
  intro x y s
  refine ⟨⟨_, rfl, ?_, fun hx => ?_, s.setFlagThenV_keeps _ x _⟩,
    ⟨_, rfl, ?_, fun hx => ?_, s.setFlagThenV_keeps _ x _⟩⟩
  · rw [State.getV_setFlagThenV_result, BitVec.toNat_ushiftRight, Nat.shiftRight_eq_div_pow, Nat.pow_one]
  · rw [State.getV_setFlagThenV_flag _ _ _ hx, lowBitFlag_toNat]
  · rw [State.getV_setFlagThenV_result, BitVec.toNat_shiftLeft, Nat.shiftLeft_eq, Nat.pow_one]
  · rw [State.getV_setFlagThenV_flag _ _ _ hx, highBitFlag_toNat]

/-- Settles O41: the direction of the difference is the parameter's, the flag's is not. -/
theorem subtractReversedFlag : Obligations.SubtractReversedFlag := by
  intro x y s
  refine ⟨_, rfl, fun hdir => ?_, fun hdir => ?_, fun hx => ?_, s.setFlagThenV_keeps _ x _⟩
  · rw [State.getV_setFlagThenV_result, hdir, if_neg (by simp), sub_toNat_mod]
  · rw [State.getV_setFlagThenV_result, hdir, if_pos rfl, sub_toNat_mod]
  · rw [State.getV_setFlagThenV_flag _ _ _ hx, noBorrowFlag_toNat]

end Sys2Proof.Machine
end

section
/-! SUPPORT. Instruction by instruction: the index register and the block transfers (R141 to R146). -/

namespace Sys2Proof.Machine

open Sys2Proof Sys2Proof.Claims

/-- R142: a glyph's address is below 432 + 5 * 256, so 16 bits hold it exactly. -/
theorem glyphAddress_toNat (fontBase : Fin 433) (digit : Byte) :
    (glyphAddress fontBase.val digit).toNat = fontBase.val + 5 * digit.toNat := by
  have := fontBase.isLt
  have := digit.isLt
  rw [glyphAddress, BitVec.toNat_ofNat]
  omega

/-- Settles O44: one `setI` each. -/
theorem indexArithmetic : Obligations.IndexArithmetic := by
  intro x s
  refine ⟨⟨_, rfl, ?_, s.setI_keeps _⟩, ⟨_, rfl, glyphAddress_toNat _ _, s.setI_keeps _⟩⟩
  rw [State.setI_i, BitVec.toNat_add, zextByte, BitVec.toNat_setWidth_of_le (by decide)]

/-- Settles O45: the stored run is the three digits. -/
theorem bcdStoresThreeDigits : Obligations.BcdStoresThreeDigits := by
  intro x s
  have hbyte := (s.getV x).isLt
  have hread (k : Nat) (hk : k < 3) :
      (completed (.ldB x) s).readByte (s.i.toNat + k) = (bcdDigits (s.getV x))[k] :=
    s.readByte_writeBytes_inside s.base k (bcdDigits (s.getV x)) hk
  have hdigit {d : Nat} (hd : d < 256) : (BitVec.ofNat 8 d).toNat = d := Nat.mod_eq_of_lt hd
  refine ⟨fun h => ⟨completed (.ldB x) s, exec_completes (by simp) (if_neg (by omega)), ?_, ?_, ?_,
    completed_keeps (.ldB x) s⟩, fun h hnone => exec_halts (if_pos h) hnone⟩
  · exact (congrArg BitVec.toNat (hread 0 (by decide))).trans (hdigit (by omega))
  · exact (congrArg BitVec.toNat (hread 1 (by decide))).trans (hdigit (by omega))
  · exact (congrArg BitVec.toNat (hread 2 (by decide))).trans (hdigit (by omega))

/-- Settles O46: the stored run is the registers up to `V[x]`. -/
theorem blockStore : Obligations.BlockStore := by
  intro x s
  refine ⟨fun h => ⟨completed (.stRegs x) s, exec_completes (by simp) (if_neg (by omega)), fun r hr => ?_,
    completed_keeps (.stRegs x) s⟩, fun h hnone => exec_halts (if_pos h) hnone⟩
  have hlen : r.val < (s.regsUpTo x).length := by
    rw [State.regsUpTo_length]
    exact Nat.lt_succ_of_le hr
  exact (s.readByte_writeBytes_inside s.base r.val _ hlen).trans (s.regsUpTo_get x r hlen)

/-- Settles O47: the bytes read are the registers' new values. -/
theorem blockLoad : Obligations.BlockLoad := by
  intro x s
  refine ⟨fun h => ⟨completed (.ldRegs x) s, exec_completes (by simp) (if_neg (by omega)), fun r hr => ?_,
    completed_keeps (.ldRegs x) s⟩, fun h hnone => exec_halts (if_pos h) hnone⟩
  have hlen := s.bytesAt_length s.base (x.val + 1)
  have hin : 0 ≤ r.val ∧ r.val < 0 + (s.bytesAt s.base (x.val + 1)).length := by
    rw [hlen]
    have : r.val ≤ x.val := hr
    omega
  show (s.setVFrom 0 _).getV r = _
  rw [State.getV_setVFrom _ _ _ _ (by rw [hlen]; omega), dif_pos hin]
  exact s.bytesAt_get _ _ _ _

end Sys2Proof.Machine
end

section
/-! SUPPORT. Instruction by instruction: the display (R150 to R153). -/

namespace Sys2Proof.Machine

open Sys2Proof Sys2Proof.Claims

/-- Settles O48: every row of the new frame buffer is 0. -/
theorem clearScreen : Obligations.ClearScreen :=
  fun s => ⟨_, rfl, FrameBuffer.pixel_clear, completed_cls_keeps s⟩

/-- Settles O50, by the row of `DRW` in the table of faults. -/
theorem drawPastMemoryFaults : Obligations.DrawPastMemoryFaults :=
  fun _ _ _ _ hn hi hnone => exec_halts (if_pos ⟨hn, hi⟩) hnone

section
variable (x y : Reg) (n : Nibble) (s : State)

/-- The frame buffer and the collision bit after `DRW Vx,Vy,n`. -/
def State.canvasDrawn : Canvas :=
  drawBytes (s.getV x).toNat (s.getV y).toNat 0 (s.bytesAt s.base n.val) (s.fb, false)

/-- R152: what has been drawn, in the terms of the sprite's set bits. -/
theorem State.canvasDrawn_drawn : Drawn (s.fb, false) (s.canvasDrawn x y n) (SpriteOn s x y n) := by
  have hlen : (s.bytesAt s.base n.val).length ≤ 32 := by rw [State.bytesAt_length]; omega
  have hcov := funext fun p => propext (covered_iff_spriteOn s x y n p)
  exact hcov ▸ drawBytes_drawn _ _ 0 _ (s.fb, false) hlen

theorem completed_drw_inverted {p : Nat} (hp : SpriteOn s x y n p) :
    (completed (.drw x y n) s).pixel p = !s.pixel p :=
  (s.canvasDrawn_drawn x y n).inverted p hp

theorem completed_drw_untouched {p : Nat} (hp : ¬ SpriteOn s x y n p) :
    (completed (.drw x y n) s).pixel p = s.pixel p :=
  (s.canvasDrawn_drawn x y n).untouched p hp

theorem State.canvasDrawn_collision :
    (s.canvasDrawn x y n).2 = true ↔ ∃ p, SpriteOn s x y n p ∧ s.pixel p = true :=
  (s.canvasDrawn_drawn x y n).collision.trans (by simp [State.pixel])

/-- R152: `VF` is the collision bit. -/
theorem completed_drw_vF :
    (completed (.drw x y n) s).getV 15 = flagByte (s.canvasDrawn x y n).2 :=
  (s.drawSprite_getV x y 15 _).trans (if_pos rfl)

theorem flagByte_eq_one {f : Bool} : flagByte f = 1 ↔ f = true := by cases f <;> decide

/-- R153: `VF` is 1 exactly on a collision. -/
theorem completed_drw_vF_eq_one :
    (completed (.drw x y n) s).getV 15 = 1 ↔ ∃ p, SpriteOn s x y n p ∧ s.pixel p = true := by
  rw [completed_drw_vF, flagByte_eq_one, State.canvasDrawn_collision]

/-- A flag that is not 1 is 0. -/
theorem completed_drw_vF_eq_zero (h : ¬ ∃ p, SpriteOn s x y n p ∧ s.pixel p = true) :
    (completed (.drw x y n) s).getV 15 = 0 := by
  rw [← State.canvasDrawn_collision, Bool.not_eq_true] at h
  rw [completed_drw_vF, h]
  rfl

variable {x y n s}

/-- R152: with its sprite inside the memory `DRW` completes. -/
theorem exec_drw (h : n.val = 0 ∨ s.i.toNat + n.val - 1 ≤ 4095) :
    exec (.drw x y n) s = .next (completed (.drw x y n) s) :=
  exec_completes (by simp) (if_neg (by omega))

/-- The sprite reads `I`, the two coordinates and its own bytes. -/
theorem spriteOn_congr {u : State} (hi : u.i = s.i) (hx : u.getV x = s.getV x) (hy : u.getV y = s.getV y)
    (hbytes : ∀ r < n.val, u.readByte (s.i.toNat + r) = s.readByte (s.i.toNat + r)) (p : Nat) :
    SpriteOn u x y n p ↔ SpriteOn s x y n p := by
  unfold SpriteOn
  rw [hi, hx, hy]
  refine exists_congr fun r => exists_congr fun c => and_congr_right fun hr => ?_
  rw [hbytes r hr]

end

/-- Settles O49: the completion's drawing, and its footprint. -/
theorem drawInvertsSpritePixels : Obligations.DrawInvertsSpritePixels := by
  intro x y n s h
  refine ⟨_, exec_drw h, fun p hp => completed_drw_inverted x y n s hp, (completed_drw_vF_eq_one x y n s).2,
    fun hdark => completed_drw_vF_eq_zero x y n s ?_, rfl, completed_keeps (.drw x y n) s⟩
  rintro ⟨p, hp, hlit⟩
  simp [hdark p hp] at hlit

/-- Settles O51: a pixel under the sprite is inverted twice, and any other not at all. -/
theorem drawingTwiceRestores : Obligations.DrawingTwiceRestores := by
  intro x y n s t u h ht hfb hi hx hy hbytes
  obtain rfl : completed (.drw x y n) s = t := by cases (exec_drw h).symm.trans ht; rfl
  have hon := spriteOn_congr hi hx hy hbytes
  have hpixel (p : Nat) : u.pixel p = (completed (.drw x y n) s).pixel p := by
    rw [State.pixel, hfb, State.pixel]
  refine ⟨_, exec_drw (by rwa [hi]), FrameBuffer.ext_pixel fun p => ?_, ?_⟩
  · show (completed (.drw x y n) u).pixel p = s.pixel p
    by_cases hp : SpriteOn s x y n p
    · rw [completed_drw_inverted x y n u ((hon p).2 hp), hpixel, completed_drw_inverted x y n s hp,
        Bool.not_not]
    · rw [completed_drw_untouched x y n u (mt (hon p).1 hp), hpixel, completed_drw_untouched x y n s hp]
  · rw [completed_drw_vF_eq_one]
    refine exists_congr fun p => (and_congr_left' (hon p)).trans (and_congr_right fun hp => ?_)
    rw [hpixel, completed_drw_inverted x y n s hp, Bool.not_eq_true']

end Sys2Proof.Machine
end
